-- ==== Sys2Proof/Word.lean ====
section
/-! DEFINITION. The byte and the masking key (00_scope.md R9, 20_memory.md R40). -/

namespace Sys2Proof

/-- A byte: 8 bits, bit 7 the most significant (00_scope.md R8, R9). -/
abbrev Byte := BitVec 8

/-- A masking key: 4 bytes in wire order, `k0` at the lowest frame offset (20_memory.md R40). It is a
sequence of bytes, not an integer. -/
structure Key where
  k0 : Byte
  k1 : Byte
  k2 : Byte
  k3 : Byte
  deriving DecidableEq, Repr, Inhabited

end Sys2Proof
end

