-- ==== Sys2Proof/Syntax.lean ====
section
/-! DEFINITION. The units, the ten rows of spec/opcode_table.json as one inductive, and what a caller
presents to the block: the request records of 10_state.md R18 to R21 or a frame buffer. -/

namespace Sys2Proof

/-- The four units of the block (00_scope.md R1, R3). -/
inductive UnitId where
  /-- `websocket_frame_encoder`, operation `ENCODE`. -/
  | fenc
  /-- `websocket_frame_decoder`, operation `DECODE`. -/
  | fdec
  /-- `variable_length_header_encoder`, operation `HDRENC`. -/
  | vlhe
  /-- `xor_masking_engine`, operation `XORMASK`. -/
  | xme
  deriving DecidableEq, Repr

/-- The fields of byte 0 of a frame, most significant first (30_encoding.md R53). -/
structure FrameTag where
  fin : Bool
  rsv1 : Bool
  rsv2 : Bool
  rsv3 : Bool
  opcode : BitVec 4
  deriving DecidableEq, Repr

/-- One constructor per row of spec/opcode_table.json. A frame form stands for a frame of that form handed
to FDEC (the rows' own rule is R105; log entry 2): its fields are those of 30_encoding.md R53 to R55, and
`rest` is every byte of the buffer after the header: the key when `MASK` = 1, the payload, and whatever
follows the frame (or less than all of that, when the buffer is short). -/
inductive Instr where
  /-- `FRAME.M.U`: LEN7 = 126, MASK = 0. -/
  | frameMU (tag : FrameTag) (len16 : BitVec 16) (rest : List Byte)
  /-- `FRAME.M.K`: LEN7 = 126, MASK = 1. -/
  | frameMK (tag : FrameTag) (len16 : BitVec 16) (rest : List Byte)
  /-- `FRAME.L.U`: LEN7 = 127, MASK = 0. -/
  | frameLU (tag : FrameTag) (len64 : BitVec 64) (rest : List Byte)
  /-- `FRAME.L.K`: LEN7 = 127, MASK = 1. -/
  | frameLK (tag : FrameTag) (len64 : BitVec 64) (rest : List Byte)
  /-- `FRAME.S.U`: LEN7 = 0..125, MASK = 0. -/
  | frameSU (tag : FrameTag) (len7 : Fin 126) (rest : List Byte)
  /-- `FRAME.S.K`: LEN7 = 0..125, MASK = 1. -/
  | frameSK (tag : FrameTag) (len7 : Fin 126) (rest : List Byte)
  /-- `ENCODE(payload, opcode, fin, mask)` (42_frame_encoder.md R88). -/
  | encode (payload : List Byte) (opcode : Nat) (fin mask : Bool)
  /-- `DECODE(frame)` (43_frame_decoder.md R99). -/
  | decode (frame : List Byte)
  /-- `HDRENC(fin, opcode, mask, length)` (40_header_encoder.md R72). -/
  | hdrenc (fin : Bool) (opcode : Nat) (mask : Bool) (length : Nat)
  /-- `XORMASK(key, data)` (41_xor_masking.md R80). -/
  | xormask (key data : List Byte)
  deriving DecidableEq, Repr

/-- The unit that performs an instruction (00_scope.md R3); every frame form is FDEC's. -/
def Instr.unit : Instr → UnitId
  | .frameMU _ _ _ => .fdec
  | .frameMK _ _ _ => .fdec
  | .frameLU _ _ _ => .fdec
  | .frameLK _ _ _ => .fdec
  | .frameSU _ _ _ => .fdec
  | .frameSK _ _ _ => .fdec
  | .encode _ _ _ _ => .fenc
  | .decode _ => .fdec
  | .hdrenc _ _ _ _ => .vlhe
  | .xormask _ _ => .xme

/-- The request fields of 10_state.md R18 to R21 in one record; `none` where the caller gives no such
field. Which fields a unit takes, and which it may do without, is the decoder's to say. -/
structure RequestRecord where
  payload : Option (List Byte) := none
  opcode : Option Nat := none
  fin : Option Bool := none
  mask : Option Bool := none
  frame : Option (List Byte) := none
  length : Option Nat := none
  key : Option (List Byte) := none
  data : Option (List Byte) := none
  deriving DecidableEq, Repr

/-- What a caller presents (log entries 2 and 3). -/
inductive Request where
  /-- A request record sent to the unit numbered `unit` (30_encoding.md R68). -/
  | call (unit : BitVec 2) (fields : RequestRecord)
  /-- A buffer handed to FDEC as it came off the wire. -/
  | wire (frame : List Byte)
  deriving DecidableEq, Repr

/-- Why a request record is no request of its unit: the record does not have the type that
10_state.md R18 to R21 give the unit's request. All are safe: the model stops. -/
inductive DecodeError where
  /-- A field without a default is not there (30_encoding.md R69 gives defaults to three fields of
  `ENCODE` only). -/
  | missingOperand
  /-- A field the unit's request does not have. -/
  | foreignOperand
  /-- The `opcode` operand is no `uintOPW` (10_state.md R16). -/
  | opcodeWiderThanOpw
  /-- The key is not exactly 4 bytes (10_state.md R21). -/
  | keyNotFourBytes
  deriving DecidableEq, Repr

end Sys2Proof
end

