-- ==== Sys2Proof/Machine/Bytes.lean ====
section
/-! DEFINITION. Bit fields of bytes 0 and 1, byte order, and the buffer primitives `MemRead`, `MemWrite`
and `emit` (00_scope.md R8 to R10, 20_memory.md R34 to R40, 30_encoding.md R53). -/

namespace Sys2Proof

/-- Byte 0: `FIN RSV1 RSV2 RSV3 OPCODE(4)`, bit 7 first (30_encoding.md R53). -/
def byte0 (t : FrameTag) : Byte :=
  BitVec.ofBool t.fin ++ BitVec.ofBool t.rsv1 ++ BitVec.ofBool t.rsv2 ++ BitVec.ofBool t.rsv3 ++ t.opcode

/-- Byte 1: `MASK LEN7(7)`, bit 7 first (30_encoding.md R53). -/
def byte1 (mask : Bool) (len7 : BitVec 7) : Byte :=
  BitVec.ofBool mask ++ len7

/-- The fields of byte 0 (43_frame_decoder.md R101 step 1). -/
def tagOf (b0 : Byte) : FrameTag where
  fin := b0.getLsbD 7
  rsv1 := b0.getLsbD 6
  rsv2 := b0.getLsbD 5
  rsv3 := b0.getLsbD 4
  opcode := b0.extractLsb' 0 4

/-- `hasMask = bit7` of byte 1 (43_frame_decoder.md R101 step 2). -/
def maskOf (b1 : Byte) : Bool :=
  b1.getLsbD 7

/-- `primaryLength = low 7 bits` of byte 1 (43_frame_decoder.md R101 step 2). -/
def len7Of (b1 : Byte) : BitVec 7 :=
  b1.extractLsb' 0 7

/-- `be16(v)`: the most significant byte first (00_scope.md R9, 20_memory.md R38). -/
def be16 (v : BitVec 16) : List Byte :=
  [v.extractLsb' 8 8, v.extractLsb' 0 8]

/-- `be64(v)`: the most significant byte first (00_scope.md R9, 20_memory.md R38). -/
def be64 (v : BitVec 64) : List Byte :=
  [v.extractLsb' 56 8, v.extractLsb' 48 8, v.extractLsb' 40 8, v.extractLsb' 32 8,
   v.extractLsb' 24 8, v.extractLsb' 16 8, v.extractLsb' 8 8, v.extractLsb' 0 8]

/-- The big-endian value of `s` on top of the value `acc` of the bytes before it. -/
def fromBeOnto : Nat → List Byte → Nat
  | acc, [] => acc
  | acc, b :: s => fromBeOnto (acc * 256 + b.toNat) s

/-- `from_be(s)`: `s[0]` is the most significant byte (00_scope.md R9). -/
def fromBe (s : List Byte) : Nat :=
  fromBeOnto 0 s

/-- `MemRead(buf, off, n)`: the bytes `buf[off ..< off+n]`, defined only when `off + n <= |buf|`
(20_memory.md R36). -/
def memRead (buf : List Byte) (off n : Nat) : Option (List Byte) :=
  if off + n ≤ buf.length then some ((buf.drop off).take n) else none

/-- `MemWrite(out, off, n, v)` with `n = |v|`: the bytes `v` at offsets `off` to `off + n - 1` of the
output (20_memory.md R37). The operation rules use it only through `emit`. -/
def memWrite (out : List Byte) (off : Nat) (v : List Byte) : List Byte :=
  out.take off ++ v ++ out.drop (off + v.length)

/-- `emit(out, v)`: `MemWrite(out, |out so far|, |v|, v)` (00_scope.md R10). -/
def emit (out v : List Byte) : List Byte :=
  memWrite out out.length v

/-- The bytes of a key in wire order (20_memory.md R40, 30_encoding.md R61). -/
def keyBytes (k : Key) : List Byte :=
  [k.k0, k.k1, k.k2, k.k3]

/-- A key from exactly 4 bytes, the first of them `key[0]` (10_state.md R21, 20_memory.md R40). -/
def keyOfBytes : List Byte → Option Key
  | [a, b, c, d] => some ⟨a, b, c, d⟩
  | _ => none

end Sys2Proof
end

