-- ==== Sys2Proof/Config.lean ====
section
/-! DEFINITION. What an implementation fixes (00_scope.md R7, 10_state.md R24) and the free value of the
random source (10_state.md R31, R32). -/

namespace Sys2Proof

/-- `TRUNC_POLICY` (00_scope.md R7, 43_frame_decoder.md R108): what `DECODE` does with a buffer shorter
than its frame declares. -/
inductive TruncPolicy where
  /-- DOC0's option (b): return the shortest available slice; numbered 0. -/
  | clip
  /-- DOC0's option (a): end with `TruncatedFrame`; numbered 1. -/
  | fail
  deriving DecidableEq, Repr

/-- The static configuration: fixed before the first transaction, read-only to every operation
(10_state.md R24). -/
structure Config where
  /-- `OPW`, the width in bits of the `opcode` operand; legal from 4 up. -/
  opw : Nat
  /-- `LMAX`, the largest length `ENCODE`, `HDRENC` and `XORMASK` accept: 0 to 2^64 - 1 by its type. -/
  lmax : Fin (2 ^ 64)
  /-- `FMAX`, the largest buffer `DECODE` accepts; `none` is unbounded. -/
  fmax : Option Nat
  /-- `TRUNC_POLICY`. -/
  truncPolicy : TruncPolicy
  deriving DecidableEq, Repr

/-- The defaults of 00_scope.md R7. DESIGN CHOICE (the spec's own, D4 to D7; log entries 4 to 7), unsafe:
a fact about these values is not a fact about a block configured otherwise. -/
def Config.default : Config where
  opw := 8
  lmax := ⟨18446744073709551615, by decide⟩
  fmax := none
  truncPolicy := .clip

/-- One answer of the random source to a request for 4 bytes (10_state.md R31). -/
inductive RngAnswer where
  /-- `Ok(k)`: exactly 4 bytes, `k0` delivered first. -/
  | ok (k : Key)
  /-- Fewer than 4 bytes came (how many: 0 to 3); it counts as `Unavailable` (D12, log entry 12). -/
  | short (n : Fin 4)
  /-- `Unavailable`. -/
  | unavailable
  deriving DecidableEq, Repr, Inhabited

/-- The free value of 10_state.md R32: what the source answers to the `n`-th request where State lists no
answer it has already put up. It has no body: any key and `Unavailable` are possible (log entry 13). -/
opaque Config.rngAnswer : Nat → RngAnswer

end Sys2Proof
end

