-- ==== Sys2Proof/Machine/State.lean ====
section
/-! DEFINITION. The state of the block as plain data, the reasons a step can stop, and the state after
reset (10_state.md R13 to R33). INVENTORY.md, State, lists every field. -/

namespace Sys2Proof.Machine

/-- The phase of a unit (10_state.md R15). -/
inductive Phase where
  /-- No transaction in progress, ready for a request. -/
  | idle
  /-- A transaction in progress. -/
  | busy
  deriving DecidableEq, Repr

/-- `status` (10_state.md R22, 60_exceptions.md R116). -/
inductive Status where
  | ok
  | randomnessUnavailable
  | truncatedFrame
  deriving DecidableEq, Repr

/-- The Frame Metadata Record: nine fields (10_state.md R17). -/
structure Meta where
  fin : Bool
  rsv1 : Bool
  rsv2 : Bool
  rsv3 : Bool
  opcode : BitVec 4
  hasMask : Bool
  length : BitVec 64
  payloadOffset : Nat
  headerLength : Nat
  deriving DecidableEq, Repr

/-- An `ENCODE` response: the outputs, or the error alone (10_state.md R18, 60_exceptions.md R121, R128). -/
inductive EncodeResponse where
  | ok (frameOut : List Byte)
  | randomnessUnavailable
  deriving DecidableEq, Repr

/-- A `DECODE` response: the outputs, or the error alone (10_state.md R19, 60_exceptions.md R121, R128). -/
inductive DecodeResponse where
  | ok (truncated : Bool) (payloadOut : List Byte) (record : Meta)
  | truncatedFrame
  deriving DecidableEq, Repr

/-- An `HDRENC` response; its status is always `OK` (10_state.md R20). -/
inductive HdrencResponse where
  | ok (headerOut : List Byte)
  deriving DecidableEq, Repr

/-- A `XORMASK` response; its status is always `OK` (10_state.md R21). -/
inductive XormaskResponse where
  | ok (dataOut : List Byte)
  deriving DecidableEq, Repr

/-- The response of some unit. -/
inductive Response where
  | encode (r : EncodeResponse)
  | decode (r : DecodeResponse)
  | hdrenc (r : HdrencResponse)
  | xormask (r : XormaskResponse)
  deriving DecidableEq, Repr

/-- The two error results (60_exceptions.md R116). They are responses, not faults of the model (R128). -/
inductive ErrorResult where
  | randomnessUnavailable
  | truncatedFrame
  deriving DecidableEq, Repr

/-- What stops the machine with a fault. -/
inductive Fault where
  /-- A `MemRead` outside its buffer, raised by the meanings of `DECODE` and of the frame forms. The spec
  defines no such read and says that none is issued (20_memory.md R36, 60_exceptions.md R117). Safe: the
  model stops rather than invent a byte. -/
  | readOutsideBuffer
  deriving DecidableEq, Repr

/-- Why the model gives a request no meaning (60_exceptions.md R118). All are safe: nothing can be proved
about what the block would do. -/
inductive Refusal where
  /-- Raised by `exec` for an instruction without a meaning. Safe. -/
  | notModelled (mnemonic : String)
  /-- Raised by `ENCODE` for `|payload| > LMAX` (42_frame_encoder.md R89). Safe. -/
  | payloadAboveLmax
  /-- Raised by `HDRENC` for `length > LMAX` (40_header_encoder.md R72). Safe. -/
  | lengthAboveLmax
  /-- Raised by `XORMASK` for `|data| > LMAX` (41_xor_masking.md R80). Safe. -/
  | dataAboveLmax
  /-- Raised by `XORMASK` for a key that is not exactly 4 bytes (41_xor_masking.md R80). Safe. -/
  | keyNotFourBytes
  /-- Raised by `DECODE` and the frame forms for `|frame| > FMAX` (43_frame_decoder.md R100). Safe. -/
  | frameAboveFmax
  /-- Raised by the step for a record that is no request of its unit (93_implementation_defined.md X2; log
  entries 3 and 4). Safe. -/
  | illTypedRequest (why : DecodeError)
  deriving DecidableEq, Repr

/-- The state of the block and of what stands at its edges. -/
structure State where
  /-- Static configuration (10_state.md R24). -/
  cfg : Config
  /-- Phase of unit FENC (10_state.md R15). -/
  fencPhase : Phase
  /-- Phase of unit FDEC (10_state.md R15). -/
  fdecPhase : Phase
  /-- Phase of unit VLHE (10_state.md R15). -/
  vlhePhase : Phase
  /-- Phase of unit XME (10_state.md R15). -/
  xmePhase : Phase
  /-- `ENCODE` responses since reset, oldest first (10_state.md R18; log entry 20). -/
  fencOut : List EncodeResponse
  /-- `DECODE` responses since reset, oldest first (10_state.md R19; log entry 20). -/
  fdecOut : List DecodeResponse
  /-- `HDRENC` responses since reset, oldest first (10_state.md R20; log entry 20). -/
  vlheOut : List HdrencResponse
  /-- `XORMASK` responses since reset, oldest first (10_state.md R21; log entry 20). -/
  xmeOut : List XormaskResponse
  /-- Requests presented and not yet taken, oldest first (10_state.md R15; log entry 3). -/
  requests : List Request
  /-- The reset input (70_reset_and_hazards.md R135, R136; log entry 14). -/
  resetLine : Bool
  /-- Answers the random source has put up for coming requests, oldest first (10_state.md R31; log
  entry 13). -/
  rngAnswers : List RngAnswer
  /-- The model's own counter: requests made to the random source (log entry 13). -/
  rngRequests : Nat
  /-- The model's own counter: random bytes consumed (10_state.md R29; log entry 13). -/
  rngBytes : Nat
  deriving DecidableEq, Repr

/-- The block right after reset (10_state.md R33): every unit `IDLE`, no request, no response, the
configuration as configured (here the defaults of 00_scope.md R7). The values of the reset input and of
the random source's fields are DESIGN CHOICE (log entries 13 and 14). -/
def State.reset : State where
  cfg := Config.default
  fencPhase := .idle
  fdecPhase := .idle
  vlhePhase := .idle
  xmePhase := .idle
  fencOut := []
  fdecOut := []
  vlheOut := []
  xmeOut := []
  requests := []
  resetLine := false
  rngAnswers := []
  rngRequests := 0
  rngBytes := 0

end Sys2Proof.Machine
end

