-- ==== Sys2Proof/Machine/Operands.lean ====
section
/-! DEFINITION. Operand assembly in both directions: opcode, lengths, offsets, admission (30_encoding.md
R57 to R60, 20_memory.md R44, R51). -/

namespace Sys2Proof.Machine

/-- `OPCODE = opcode & 0x0F`, as the low bits of a byte (30_encoding.md R59). The operand is a natural
below 2^OPW; its bits 4 and above do not reach the frame. -/
def opcodeField (opcode : Nat) : Byte :=
  BitVec.ofNat 8 opcode &&& 0x0F

/-- Byte 0 in the encoding direction: `(fin ? 0x80 : 0x00) | (opcode & 0x0F)` (30_encoding.md R60). -/
def encodedByte0 (fin : Bool) (opcode : Nat) : Byte :=
  (if fin then 0x80 else 0x00) ||| opcodeField opcode

/-- `mask ? 0x80 : 0`, the top bit of byte 1 in the encoding direction (30_encoding.md R60). -/
def maskBit (mask : Bool) : Byte :=
  if mask then 0x80 else 0x00

/-- `headerLength` from `LEN7` (43_frame_decoder.md R101 step 3, R104). -/
def headerLengthOf (len7 : Nat) : Nat :=
  if len7 ≤ 125 then 2 else if len7 = 126 then 4 else 10

/-- `payloadOffset = headerLength + (hasMask ? 4 : 0)` (43_frame_decoder.md R101 step 4, R102). -/
def payloadOffsetOf (headerLength : Nat) (hasMask : Bool) : Nat :=
  headerLength + (if hasMask then 4 else 0)

/-- The metadata record of a header with these fields (43_frame_decoder.md R101, R106). -/
def metaOf (tag : FrameTag) (hasMask : Bool) (headerLength : Nat) (length : BitVec 64) : Meta where
  fin := tag.fin
  rsv1 := tag.rsv1
  rsv2 := tag.rsv2
  rsv3 := tag.rsv3
  opcode := tag.opcode
  hasMask := hasMask
  length := length
  payloadOffset := payloadOffsetOf headerLength hasMask
  headerLength := headerLength

/-- `length` in the decoding direction: `LEN7` zero-extended, or the big-endian extended field
(30_encoding.md R57). `none` where the field lies outside the buffer. -/
def declaredLength (frame : List Byte) (len7 : Nat) : Option (BitVec 64) :=
  if len7 ≤ 125 then some (BitVec.ofNat 64 len7)
  else (memRead frame 2 (if len7 = 126 then 2 else 8)).map fun s => BitVec.ofNat 64 (fromBe s)

/-- `avail`: the bytes of the buffer at and beyond `payloadOffset` (43_frame_decoder.md R105). -/
def availableBytes (m : Meta) (n : Nat) : Nat :=
  if m.payloadOffset ≤ n then n - m.payloadOffset else 0

/-- `n = min(length, avail)`: how many payload bytes are present (43_frame_decoder.md R105). -/
def presentBytes (m : Meta) (n : Nat) : Nat :=
  min m.length.toNat (availableBytes m n)

/-- Admission of a length against `LMAX` (42_frame_encoder.md R89, 40_header_encoder.md R72,
41_xor_masking.md R80). -/
def admitsLength (s : State) (n : Nat) : Bool :=
  n ≤ s.cfg.lmax.val

/-- Admission of a frame buffer against `FMAX` (43_frame_decoder.md R100). -/
def admitsFrame (s : State) (n : Nat) : Bool :=
  match s.cfg.fmax with
  | none => true
  | some fmax => n ≤ fmax

end Sys2Proof.Machine
end

