-- ==== Sys2Proof/Machine/Ops.lean ====
section
/-! DEFINITION. The operations every meaning is built from: phases, responses, ending a transaction in
success (`finish`) or in an error result (`raise`), the request to the random source, and reset. -/

namespace Sys2Proof.Machine

/-- The phase of a unit (10_state.md R15). -/
def phaseOf (s : State) : UnitId → Phase
  | .fenc => s.fencPhase
  | .fdec => s.fdecPhase
  | .vlhe => s.vlhePhase
  | .xme => s.xmePhase

/-- A unit's phase set; the other three as they were (10_state.md R15). -/
def setPhase (s : State) (u : UnitId) (p : Phase) : State :=
  match u with
  | .fenc => { s with fencPhase := p }
  | .fdec => { s with fdecPhase := p }
  | .vlhe => { s with vlhePhase := p }
  | .xme => { s with xmePhase := p }

/-- The unit a response comes from. -/
def responder : Response → UnitId
  | .encode _ => .fenc
  | .decode _ => .fdec
  | .hdrenc _ => .vlhe
  | .xormask _ => .xme

/-- A response handed to the caller, after those the unit has given since reset (log entry 20). -/
def deliver (s : State) : Response → State
  | .encode r => { s with fencOut := s.fencOut ++ [r] }
  | .decode r => { s with fdecOut := s.fdecOut ++ [r] }
  | .hdrenc r => { s with vlheOut := s.vlheOut ++ [r] }
  | .xormask r => { s with xmeOut := s.xmeOut ++ [r] }

/-- `return (...)`: the transaction ends with its response and the unit is `IDLE` (00_scope.md R10,
10_state.md R15). Nothing else of the block changes (R13, R14). -/
def finish (r : Response) (s : State) : State :=
  setPhase (deliver s r) (responder r) .idle

/-- The response an error result is: the status alone (60_exceptions.md R121, D11). -/
def errorResponse : ErrorResult → Response
  | .randomnessUnavailable => .encode .randomnessUnavailable
  | .truncatedFrame => .decode .truncatedFrame

/-- `raise <Error>`: the transaction ends at once with the error result and no other output, and the unit
is `IDLE`; no state is saved, no mode changes, no handler is entered (60_exceptions.md R121). There is no
return operation beside it, since nothing is entered (R125). -/
def raise (e : ErrorResult) (s : State) : State :=
  finish (errorResponse e) s

/-- The random source's answer to the next request: the oldest it has put up, else a free value
(10_state.md R31, R32; log entry 13). -/
def nextAnswer (s : State) : RngAnswer :=
  match s.rngAnswers with
  | a :: _ => a
  | [] => Config.rngAnswer s.rngRequests

/-- The key an answer delivers; a short answer counts as `Unavailable` (10_state.md R31, D12). -/
def keyDelivered : RngAnswer → Option Key
  | .ok k => some k
  | .short _ => none
  | .unavailable => none

/-- The state after `RngRequest(4)`: one request made, its answer used up, and 4 bytes consumed when a key
came (10_state.md R29, R31; 60_exceptions.md R120). -/
def afterRequest (s : State) : State :=
  { s with
    rngAnswers := s.rngAnswers.tail
    rngRequests := s.rngRequests + 1
    rngBytes := s.rngBytes + (if (keyDelivered (nextAnswer s)).isSome then 4 else 0) }

/-- `RngRequest(4)`: the key or `Unavailable` (`none`), and the state after it (00_scope.md R10). -/
def rngRequest (s : State) : Option Key × State :=
  (keyDelivered (nextAnswer s), afterRequest s)

/-- The reset input acts: every unit is `IDLE`, a transaction in progress is abandoned without a response,
no result exists; the configuration and what stands outside the block are unchanged (10_state.md R33,
70_reset_and_hazards.md R135, R136; log entry 14). -/
def applyReset (s : State) : State :=
  { s with
    fencPhase := .idle
    fdecPhase := .idle
    vlhePhase := .idle
    xmePhase := .idle
    fencOut := []
    fdecOut := []
    vlheOut := []
    xmeOut := []
    resetLine := false }

end Sys2Proof.Machine
end

