-- ==== Sys2Proof/Machine/HeaderEncoder.lean ====
section
/-! DEFINITION. Unit VLHE: `HdrEnc` and the operation `HDRENC` (40_header_encoder.md R72 to R79). -/

namespace Sys2Proof.Machine

/-- `HdrEnc(fin, opcode, mask, length)`: the shortest header that holds the length, without the key
(40_header_encoder.md R73, 30_encoding.md R58, D16). -/
def hdrEnc (fin : Bool) (opcode : Nat) (mask : Bool) (length : Nat) : List Byte :=
  let b0 := encodedByte0 fin opcode
  let mbit := maskBit mask
  if length ≤ 125 then [b0, mbit ||| BitVec.ofNat 8 length]
  else if length ≤ 65535 then [b0, mbit ||| 126] ++ be16 (BitVec.ofNat 16 length)
  else [b0, mbit ||| 127] ++ be64 (BitVec.ofNat 64 length)

/-- `HDRENC` (40_header_encoder.md R72, R73): refused above `LMAX`, else the header; no error exists. -/
def execHdrenc (fin : Bool) (opcode : Nat) (mask : Bool) (length : Nat) (s : State) :
    Host.Outcome State Fault Refusal :=
  if admitsLength s length then
    .next (finish (.hdrenc (.ok (emit [] (hdrEnc fin opcode mask length)))) s)
  else .refused .lengthAboveLmax

end Sys2Proof.Machine
end

