-- ==== Sys2Proof/Machine/XorMasking.lean ====
section
/-! DEFINITION. Unit XME: `XorMask` and the operation `XORMASK` (41_xor_masking.md R80 to R87). -/

namespace Sys2Proof.Machine

/-- `key[i mod 4]` (41_xor_masking.md R80, R81). -/
def keyByte (k : Key) (i : Nat) : Byte :=
  match i % 4 with
  | 0 => k.k0
  | 1 => k.k1
  | 2 => k.k2
  | _ => k.k3

/-- The data bytes from index `i` on, each XOR-ed with the key byte of its index. -/
def xorMaskFrom (k : Key) : Nat → List Byte → List Byte
  | _, [] => []
  | i, d :: data => (d ^^^ keyByte k i) :: xorMaskFrom k (i + 1) data

/-- `XorMask(key, data)`: `out[i] = data[i] ^ key[i mod 4]`, `i = 0` at the first data byte
(41_xor_masking.md R80, 20_memory.md R43). -/
def xorMask (k : Key) (data : List Byte) : List Byte :=
  xorMaskFrom k 0 data

/-- `XORMASK` (41_xor_masking.md R80): refused for a key that is not 4 bytes or data above `LMAX`, else the
masked data; no error exists. -/
def execXormask (key data : List Byte) (s : State) : Host.Outcome State Fault Refusal :=
  match keyOfBytes key with
  | none => .refused .keyNotFourBytes
  | some k =>
    if admitsLength s data.length then
      .next (finish (.xormask (.ok (emit [] (xorMask k data)))) s)
    else .refused .dataAboveLmax

end Sys2Proof.Machine
end

