-- ==== Sys2Proof/Machine/FrameEncoder.lean ====
section
/-! DEFINITION. Unit FENC: the operation `ENCODE` (42_frame_encoder.md R88 to R98). -/

namespace Sys2Proof.Machine

/-- `frame_out` of an unmasked `ENCODE`: header, raw payload (42_frame_encoder.md R90). -/
def plainFrame (h payload : List Byte) : List Byte :=
  emit (emit [] h) payload

/-- `frame_out` of a masked `ENCODE`: header, key, masked payload (42_frame_encoder.md R90). -/
def maskedFrame (h : List Byte) (k : Key) (payload : List Byte) : List Byte :=
  emit (emit (emit [] h) (keyBytes k)) (xorMask k payload)

/-- `ENCODE` of an admitted payload (42_frame_encoder.md R90): a masked frame takes a fresh key from the
random source, and without one the transaction ends in `RandomnessUnavailable` with no output (R93). -/
def encodeAdmitted (payload : List Byte) (opcode : Nat) (fin mask : Bool) (s : State) : State :=
  let h := hdrEnc fin opcode mask payload.length
  if mask then
    match rngRequest s with
    | (some k, after) => finish (.encode (.ok (maskedFrame h k payload))) after
    | (none, after) => raise .randomnessUnavailable after
  else finish (.encode (.ok (plainFrame h payload))) s

/-- `ENCODE` (42_frame_encoder.md R89, R90): refused for a payload above `LMAX`. -/
def execEncode (payload : List Byte) (opcode : Nat) (fin mask : Bool) (s : State) :
    Host.Outcome State Fault Refusal :=
  if admitsLength s payload.length then .next (encodeAdmitted payload opcode fin mask s)
  else .refused .payloadAboveLmax

end Sys2Proof.Machine
end

