-- ==== Sys2Proof/WellFormed.lean ====
section
/-! DEFINITION. Which instructions are well-formed: their operands have the types of 10_state.md R16 to
R21. Sizes against `LMAX` and `FMAX` are admission, not form: `exec` refuses there (60_exceptions.md R118). -/

namespace Sys2Proof

/-- The first ill-typed operand, for a block whose `opcode` operand is `opw` bits wide. The fields of the
frame forms are well-formed by their types. -/
def Instr.illTyped (opw : Nat) : Instr → Option DecodeError
  | .frameMU _ _ _ => none
  | .frameMK _ _ _ => none
  | .frameLU _ _ _ => none
  | .frameLK _ _ _ => none
  | .frameSU _ _ _ => none
  | .frameSK _ _ _ => none
  | .encode _ opcode _ _ => if opcode < 2 ^ opw then none else some .opcodeWiderThanOpw
  | .decode _ => none
  | .hdrenc _ opcode _ _ => if opcode < 2 ^ opw then none else some .opcodeWiderThanOpw
  | .xormask key _ => if key.length = 4 then none else some .keyNotFourBytes

/-- Every operand has the type its record gives it. -/
abbrev Instr.wf (opw : Nat) (i : Instr) : Prop :=
  i.illTyped opw = none

end Sys2Proof
end

