-- ==== Sys2Proof/Decode.lean ====
section
/-! DEFINITION. The decoder (requests and frame buffers to instructions, total, refusing by name), the
encoder, and the opcode table's words (30_encoding.md R52 to R55, R68 to R70). -/

namespace Sys2Proof

/-! ## Decoding -/

/-- The unit a 2-bit `UNIT` number selects (30_encoding.md R68, D3); all four are used. -/
def unitOfNumber (u : BitVec 2) : UnitId :=
  if u = 0 then .fenc else if u = 1 then .fdec else if u = 2 then .vlhe else .xme

/-- A frame buffer as an instruction (30_encoding.md R54 to R56). A buffer that holds a whole header is a
frame of exactly one form; one that does not is still a buffer for `DECODE` (43_frame_decoder.md R103). -/
def decodeWire (frame : List Byte) : Instr :=
  match frame with
  | b0 :: b1 :: rest =>
    let tag := tagOf b0
    let len7 := (len7Of b1).toNat
    if h : len7 < 126 then
      if maskOf b1 then .frameSK tag ⟨len7, h⟩ rest else .frameSU tag ⟨len7, h⟩ rest
    else if len7 = 126 then
      match rest with
      | l0 :: l1 :: rest =>
        let len16 := BitVec.ofNat 16 (fromBe [l0, l1])
        if maskOf b1 then .frameMK tag len16 rest else .frameMU tag len16 rest
      | _ => .decode frame
    else
      match rest with
      | l0 :: l1 :: l2 :: l3 :: l4 :: l5 :: l6 :: l7 :: rest =>
        let len64 := BitVec.ofNat 64 (fromBe [l0, l1, l2, l3, l4, l5, l6, l7])
        if maskOf b1 then .frameLK tag len64 rest else .frameLU tag len64 rest
      | _ => .decode frame
  | _ => .decode frame

/-- A request record of FENC; an option the caller omits takes its default `opcode = 1`, `fin = true`,
`mask = false` (10_state.md R16, 30_encoding.md R69, R70). -/
def assembleEncode (r : RequestRecord) : Except DecodeError Instr :=
  if r.frame.isSome || r.length.isSome || r.key.isSome || r.data.isSome then .error .foreignOperand
  else
    match r.payload with
    | some payload => .ok (.encode payload (r.opcode.getD 1) (r.fin.getD true) (r.mask.getD false))
    | none => .error .missingOperand

/-- A request record of FDEC (10_state.md R19). -/
def assembleDecode (r : RequestRecord) : Except DecodeError Instr :=
  if r.payload.isSome || r.opcode.isSome || r.fin.isSome || r.mask.isSome || r.length.isSome ||
      r.key.isSome || r.data.isSome then .error .foreignOperand
  else
    match r.frame with
    | some frame => .ok (.decode frame)
    | none => .error .missingOperand

/-- A request record of VLHE; it has no optional operand (10_state.md R20, 30_encoding.md R70). -/
def assembleHdrenc (r : RequestRecord) : Except DecodeError Instr :=
  if r.payload.isSome || r.frame.isSome || r.key.isSome || r.data.isSome then .error .foreignOperand
  else
    match r.fin, r.opcode, r.mask, r.length with
    | some fin, some opcode, some mask, some length => .ok (.hdrenc fin opcode mask length)
    | _, _, _, _ => .error .missingOperand

/-- A request record of XME (10_state.md R21). -/
def assembleXormask (r : RequestRecord) : Except DecodeError Instr :=
  if r.payload.isSome || r.opcode.isSome || r.fin.isSome || r.mask.isSome || r.frame.isSome ||
      r.length.isSome then .error .foreignOperand
  else
    match r.key, r.data with
    | some key, some data => .ok (.xormask key data)
    | _, _ => .error .missingOperand

/-- The instruction a request stands for, its operands not yet checked against their types. -/
def assemble : Request → Except DecodeError Instr
  | .call u r =>
    match unitOfNumber u with
    | .fenc => assembleEncode r
    | .fdec => assembleDecode r
    | .vlhe => assembleHdrenc r
    | .xme => assembleXormask r
  | .wire frame => .ok (decodeWire frame)

/-- The decoder: total, refusing by name. -/
def decode (opw : Nat) (r : Request) : Except DecodeError Instr :=
  match assemble r with
  | .ok i =>
    match i.illTyped opw with
    | none => .ok i
    | some e => .error e
  | .error e => .error e

/-! ## Encoding -/

/-- The `LEN7` field of form `S`: the length itself (30_encoding.md R54). -/
def len7Field (len7 : Fin 126) : BitVec 7 :=
  BitVec.ofNat 7 len7.val

/-- A buffer of form `S`: 2 header bytes (30_encoding.md R54, R55). -/
def frameBytesS (tag : FrameTag) (mask : Bool) (len7 : Fin 126) (rest : List Byte) : List Byte :=
  [byte0 tag, byte1 mask (len7Field len7)] ++ rest

/-- A buffer of form `M`: LEN7 = 126, then LEN16 (30_encoding.md R54, R55). -/
def frameBytesM (tag : FrameTag) (mask : Bool) (len16 : BitVec 16) (rest : List Byte) : List Byte :=
  [byte0 tag, byte1 mask 126] ++ be16 len16 ++ rest

/-- A buffer of form `L`: LEN7 = 127, then LEN64 (30_encoding.md R54, R55). -/
def frameBytesL (tag : FrameTag) (mask : Bool) (len64 : BitVec 64) (rest : List Byte) : List Byte :=
  [byte0 tag, byte1 mask 127] ++ be64 len64 ++ rest

/-- The encoder: the request whose decoding is the instruction, with no operand left to a default. -/
def encode : Instr → Request
  | .frameMU tag len16 rest => .wire (frameBytesM tag false len16 rest)
  | .frameMK tag len16 rest => .wire (frameBytesM tag true len16 rest)
  | .frameLU tag len64 rest => .wire (frameBytesL tag false len64 rest)
  | .frameLK tag len64 rest => .wire (frameBytesL tag true len64 rest)
  | .frameSU tag len7 rest => .wire (frameBytesS tag false len7 rest)
  | .frameSK tag len7 rest => .wire (frameBytesS tag true len7 rest)
  | .encode payload opcode fin mask =>
    .call 0 { payload := some payload, opcode := some opcode, fin := some fin, mask := some mask }
  | .decode frame => .call 1 { frame := some frame }
  | .hdrenc fin opcode mask length =>
    .call 2 { fin := some fin, opcode := some opcode, mask := some mask, length := some length }
  | .xormask key data => .call 3 { key := some key, data := some data }

/-- The unit a request goes to: the one its number selects, FDEC for a buffer off the wire. -/
def requestUnit : Request → UnitId
  | .call u _ => unitOfNumber u
  | .wire _ => .fdec

/-! ## The opcode table's words -/

/-- A row of spec/opcode_table.json for a frame form: match and mask over `byte0 * 256 + byte1`
(30_encoding.md R55). -/
structure FormRow where
  mnemonic : String
  pattern : BitVec 16
  mask : BitVec 16
  headerLength : Nat
  payloadOffset : Nat
  deriving DecidableEq, Repr

/-- The six frame rows in their match order. -/
def formRows : List FormRow :=
  [⟨"FRAME.M.U", 0x007E, 0x00FF, 4, 4⟩, ⟨"FRAME.M.K", 0x00FE, 0x00FF, 4, 8⟩,
   ⟨"FRAME.L.U", 0x007F, 0x00FF, 10, 10⟩, ⟨"FRAME.L.K", 0x00FF, 0x00FF, 10, 14⟩,
   ⟨"FRAME.S.U", 0x0000, 0x0080, 2, 2⟩, ⟨"FRAME.S.K", 0x0080, 0x0080, 2, 6⟩]

/-- The first row that matches the first two bytes of a frame. -/
def formRowOf (w : BitVec 16) : Option FormRow :=
  formRows.find? fun r => w &&& r.mask == r.pattern

/-- The mnemonic of an instruction's row. -/
def Instr.mnemonic : Instr → String
  | .frameMU _ _ _ => "FRAME.M.U"
  | .frameMK _ _ _ => "FRAME.M.K"
  | .frameLU _ _ _ => "FRAME.L.U"
  | .frameLK _ _ _ => "FRAME.L.K"
  | .frameSU _ _ _ => "FRAME.S.U"
  | .frameSK _ _ _ => "FRAME.S.K"
  | .encode _ _ _ _ => "ENCODE"
  | .decode _ => "DECODE"
  | .hdrenc _ _ _ _ => "HDRENC"
  | .xormask _ _ => "XORMASK"

/-- How many zero bytes complete a frame whose first two bytes are given and whose other bytes are all
zero: the extended length, the key, and `LEN7` payload bytes for form `S` (an extended length that is
zero declares an empty payload). -/
def zeroFill (b1 : Byte) : Nat :=
  let len7 := (len7Of b1).toNat
  (if len7 ≤ 125 then len7 else if len7 = 126 then 2 else 8) + (if maskOf b1 then 4 else 0)

/-- A request record of the unit with every operand zero: empty byte sequences, false, 0, and the
all-zero key (log entry 22). -/
def zeroRecord : UnitId → RequestRecord
  | .fenc => { payload := some [], opcode := some 0, fin := some false, mask := some false }
  | .fdec => { frame := some [] }
  | .vlhe => { fin := some false, opcode := some 0, mask := some false, length := some 0 }
  | .xme => { key := some [0, 0, 0, 0], data := some [] }

/-- The request that a word of the opcode table stands for, every operand bit the table does not number
being zero: a 16-bit word is bytes 0 and 1 of a frame (byte 0 in bits 15..8), a word of at most 8 bits a
`UNIT` number in bits 1..0 (log entry 22). -/
def tableRequest (nbits w : Nat) : Option Request :=
  if nbits = 16 then
    let b0 := BitVec.ofNat 8 (w / 256)
    let b1 := BitVec.ofNat 8 w
    some (.wire (b0 :: b1 :: List.replicate (zeroFill b1) 0))
  else if nbits ≤ 8 then
    let u := BitVec.ofNat 2 w
    some (.call u (zeroRecord (unitOfNumber u)))
  else none

/-- The instruction the decoder reads from a word of the opcode table. -/
def decodeTableWord (nbits w : Nat) : Option Instr :=
  match tableRequest nbits w with
  | some r =>
    match decode Config.default.opw r with
    | .ok i => some i
    | .error _ => none
  | none => none

end Sys2Proof
end

