-- ==== Sys2Proof/Machine/Flags.lean ====
section
/-! DEFINITION. The status-like outputs: `status` with its codes, and the `truncated` flag of `DECODE`
(10_state.md R22, R23; 43_frame_decoder.md R109). The block has no condition codes. -/

namespace Sys2Proof.Machine

/-- The numeric code of a status (10_state.md R22, D10). -/
def statusCode : Status → Nat
  | .ok => 0
  | .randomnessUnavailable => 1
  | .truncatedFrame => 2

/-- The status an `ENCODE` response carries (10_state.md R18). -/
def encodeStatus : EncodeResponse → Status
  | .ok _ => .ok
  | .randomnessUnavailable => .randomnessUnavailable

/-- The status a `DECODE` response carries (10_state.md R19). -/
def decodeStatus : DecodeResponse → Status
  | .ok _ _ _ => .ok
  | .truncatedFrame => .truncatedFrame

/-- The status of any response (10_state.md R22). -/
def responseStatus : Response → Status
  | .encode r => encodeStatus r
  | .decode r => decodeStatus r
  | .hdrenc _ => .ok
  | .xormask _ => .ok

/-- `truncated = (payloadOffset + length > N)`, on naturals, so that nothing wraps (43_frame_decoder.md
R109, D15). -/
def truncatedFlag (m : Meta) (n : Nat) : Bool :=
  m.payloadOffset + m.length.toNat > n

end Sys2Proof.Machine
end

