-- ==== Sys2Proof/Machine/FrameDecoder.lean ====
section
/-! DEFINITION. Unit FDEC: `ParseHeader` and the operation `DECODE` (43_frame_decoder.md R99 to R114). -/

namespace Sys2Proof.Machine

/-- `ParseHeader(frame)`: the metadata record of a whole header, `none` for `HeaderIncomplete`
(43_frame_decoder.md R101, R103). -/
def parseHeader (frame : List Byte) : Option Meta :=
  match frame with
  | b0 :: b1 :: _ =>
    let len7 := (len7Of b1).toNat
    if frame.length < headerLengthOf len7 then none
    else (declaredLength frame len7).map (metaOf (tagOf b0) (maskOf b1) (headerLengthOf len7))
  | _ => none

/-- Steps 5 and 6 of `DECODE`: the payload bytes that are present, unmasked with the key in the frame. The
key is read only when a payload byte is returned (43_frame_decoder.md R105, R107, D9). `none` where a read
would leave the buffer. -/
def readPayload (m : Meta) (frame : List Byte) : Option (List Byte) :=
  let n := presentBytes m frame.length
  if n = 0 then some []
  else
    match memRead frame m.payloadOffset n with
    | none => none
    | some raw =>
      if m.hasMask then
        ((memRead frame m.headerLength 4).bind keyOfBytes).map fun k => xorMask k raw
      else some raw

/-- `DECODE` once the header is parsed, for either truncation policy (43_frame_decoder.md R105, R108,
R109). -/
def decodeParsed (m : Meta) (frame : List Byte) (s : State) : Host.Outcome State Fault Refusal :=
  let truncated := truncatedFlag m frame.length
  if truncated && s.cfg.truncPolicy == .fail then .next (raise .truncatedFrame s)
  else
    match readPayload m frame with
    | some payload => .next (finish (.decode (.ok truncated (emit [] payload) m)) s)
    | none => .fault .readOutsideBuffer

/-- `DECODE` (43_frame_decoder.md R100, R103, R105): refused for a buffer above `FMAX`; an incomplete
header is `TruncatedFrame` under both policies. -/
def execDecode (frame : List Byte) (s : State) : Host.Outcome State Fault Refusal :=
  if admitsFrame s frame.length then
    match parseHeader frame with
    | none => .next (raise .truncatedFrame s)
    | some m => decodeParsed m frame s
  else .refused .frameAboveFmax

end Sys2Proof.Machine
end

