-- ==== Sys2Proof/Machine/FrameForms.lean ====
section
/-! DEFINITION. The six frame forms handed to FDEC: `DECODE` with the header's fields already told apart
(30_encoding.md R54, R55; 43_frame_decoder.md R105; log entry 2). -/

namespace Sys2Proof.Machine

/-- FDEC on a buffer whose header has been told apart into `m`. -/
def decodeForm (m : Meta) (frame : List Byte) (s : State) : Host.Outcome State Fault Refusal :=
  if admitsFrame s frame.length then decodeParsed m frame s else .refused .frameAboveFmax

/-- `FRAME.M.U`: `headerLength` 4, `payloadOffset` 4, `length = LEN16` (30_encoding.md R54, R55). -/
def execFrameMU (tag : FrameTag) (len16 : BitVec 16) (rest : List Byte) (s : State) :
    Host.Outcome State Fault Refusal :=
  decodeForm (metaOf tag false 4 (len16.setWidth 64)) (frameBytesM tag false len16 rest) s

/-- `FRAME.M.K`: `headerLength` 4, `payloadOffset` 8, `length = LEN16` (30_encoding.md R54, R55). -/
def execFrameMK (tag : FrameTag) (len16 : BitVec 16) (rest : List Byte) (s : State) :
    Host.Outcome State Fault Refusal :=
  decodeForm (metaOf tag true 4 (len16.setWidth 64)) (frameBytesM tag true len16 rest) s

/-- `FRAME.L.U`: `headerLength` 10, `payloadOffset` 10, `length = LEN64` (30_encoding.md R54, R55). -/
def execFrameLU (tag : FrameTag) (len64 : BitVec 64) (rest : List Byte) (s : State) :
    Host.Outcome State Fault Refusal :=
  decodeForm (metaOf tag false 10 len64) (frameBytesL tag false len64 rest) s

/-- `FRAME.L.K`: `headerLength` 10, `payloadOffset` 14, `length = LEN64` (30_encoding.md R54, R55). -/
def execFrameLK (tag : FrameTag) (len64 : BitVec 64) (rest : List Byte) (s : State) :
    Host.Outcome State Fault Refusal :=
  decodeForm (metaOf tag true 10 len64) (frameBytesL tag true len64 rest) s

/-- `FRAME.S.U`: `headerLength` 2, `payloadOffset` 2, `length = LEN7` zero-extended (30_encoding.md R54,
R55, R57). -/
def execFrameSU (tag : FrameTag) (len7 : Fin 126) (rest : List Byte) (s : State) :
    Host.Outcome State Fault Refusal :=
  decodeForm (metaOf tag false 2 (BitVec.ofNat 64 len7.val)) (frameBytesS tag false len7 rest) s

/-- `FRAME.S.K`: `headerLength` 2, `payloadOffset` 6, `length = LEN7` zero-extended (30_encoding.md R54,
R55, R57). -/
def execFrameSK (tag : FrameTag) (len7 : Fin 126) (rest : List Byte) (s : State) :
    Host.Outcome State Fault Refusal :=
  decodeForm (metaOf tag true 2 (BitVec.ofNat 64 len7.val)) (frameBytesS tag true len7 rest) s

end Sys2Proof.Machine
end

