-- ==== Sys2Proof/Machine/Dispatch.lean ====
section
/-! DEFINITION. One arm per constructor of Instr. -/

namespace Sys2Proof.Machine

def exec (i : Instr) (s : State) : Host.Outcome State Fault Refusal :=
  match i with
  | .frameMU tag len16 rest => Sys2Proof.Machine.execFrameMU tag len16 rest s
  | .frameMK tag len16 rest => Sys2Proof.Machine.execFrameMK tag len16 rest s
  | .frameLU tag len64 rest => Sys2Proof.Machine.execFrameLU tag len64 rest s
  | .frameLK tag len64 rest => Sys2Proof.Machine.execFrameLK tag len64 rest s
  | .frameSU tag len7 rest => Sys2Proof.Machine.execFrameSU tag len7 rest s
  | .frameSK tag len7 rest => Sys2Proof.Machine.execFrameSK tag len7 rest s
  | .encode payload opcode fin mask => Sys2Proof.Machine.execEncode payload opcode fin mask s
  | .decode frame => Sys2Proof.Machine.execDecode frame s
  | .hdrenc fin opcode mask length => Sys2Proof.Machine.execHdrenc fin opcode mask length s
  | .xormask key data => Sys2Proof.Machine.execXormask key data s

end Sys2Proof.Machine
end

