-- ==== Sys2Proof/Machine/Fetch.lean ====
section
/-! DEFINITION. What the block does next: reset, nothing, wait, or take the oldest request (10_state.md
R15; log entries 14 to 16 and 21). -/

namespace Sys2Proof.Machine

/-- What the next step is about. -/
inductive Fetched where
  /-- The reset input is asserted; the state after reset. -/
  | reset (after : State)
  /-- No request has been presented. -/
  | nothing
  /-- The oldest request is for a unit that is `BUSY`. -/
  | waiting
  /-- The oldest request is no request of its unit. -/
  | illTyped (why : DecodeError)
  /-- The unit takes the request: the instruction, and the state in which the unit runs it. -/
  | run (i : Instr) (s : State)
  deriving DecidableEq, Repr

/-- The unit takes the oldest request and is `BUSY` with it until its transaction ends (10_state.md R15). -/
def takeRequest (s : State) (u : UnitId) (rest : List Request) : State :=
  setPhase { s with requests := rest } u .busy

/-- Reset comes first; then the oldest request, decoded; a request to a `BUSY` unit waits, and nothing
changes while it does (10_state.md R15, 70_reset_and_hazards.md R136). -/
def fetch (s : State) : Fetched :=
  if s.resetLine then .reset (applyReset s)
  else
    match s.requests with
    | [] => .nothing
    | r :: rest =>
      match decode s.cfg.opw r with
      | .error e => .illTyped e
      | .ok i => if phaseOf s i.unit = .busy then .waiting else .run i (takeRequest s i.unit rest)

/-- The word of an opcode-table row presented as the very next request: ahead of the requests already
there, the reset input not asserted, and the unit it goes to ready (log entry 22). A word that stands for
no request leaves the state as it is. -/
def presentWord (s : State) (nbits w : Nat) : State :=
  match tableRequest nbits w with
  | some r =>
    let presented := { s with requests := r :: s.requests, resetLine := false }
    match decode s.cfg.opw r with
    | .ok i => setPhase presented i.unit .idle
    | .error _ => presented
  | none => s

end Sys2Proof.Machine
end

