-- ==== Sys2Proof/Machine/Step.lean ====
section
/-! DEFINITION. One step: one whole transaction, or reset (00_scope.md R11, D1; log entry 1). -/

namespace Sys2Proof.Machine

/-- One step. With nothing to do, or while the oldest request waits, the block stays as it is (log
entries 16 and 21). -/
def step (s : State) : Host.Outcome State Fault Refusal :=
  match fetch s with
  | .reset after => .next after
  | .nothing => .next s
  | .waiting => .next s
  | .illTyped why => .refused (.illTypedRequest why)
  | .run i s => exec i s

/-- `s` with a table row's word presented as the very next request (log entry 22). -/
def State.withFetchWord (s : State) (nbits w : Nat) : State :=
  presentWord s nbits w

end Sys2Proof.Machine
end

