-- ==== Sys2Proof/Safety.lean ====
section
/-! DEFINITION. What claims are stated in: the spec's results written a second time, by arithmetic and by
position rather than as the meanings compute them, and the invariant that every step keeps. -/

namespace Sys2Proof.Spec

/-- Byte 0 of an encoded frame as a number: bit 7 is `fin`, bits 3..0 are `opcode mod 16`, the reserved bits
are 0 (30_encoding.md R60). -/
def firstByte (fin : Bool) (opcode : Nat) : Byte :=
  BitVec.ofNat 8 ((if fin then 128 else 0) + opcode % 16)

/-- Byte 1 as a number: bit 7 is `mask`, the low 7 bits are `len7` (30_encoding.md R53). -/
def secondByte (mask : Bool) (len7 : Nat) : Byte :=
  BitVec.ofNat 8 ((if mask then 128 else 0) + len7)

/-- The `n` bytes of a natural, the most significant first (20_memory.md R38). -/
def bigEndian : Nat → Nat → List Byte
  | 0, _ => []
  | n + 1, v => BitVec.ofNat 8 (v / 256 ^ n) :: bigEndian n v

/-- The header of 40_header_encoder.md R73: the shortest form that holds the length. -/
def header (fin : Bool) (opcode : Nat) (mask : Bool) (length : Nat) : List Byte :=
  if length ≤ 125 then [firstByte fin opcode, secondByte mask length]
  else if length < 65536 then [firstByte fin opcode, secondByte mask 126] ++ bigEndian 2 length
  else [firstByte fin opcode, secondByte mask 127] ++ bigEndian 8 length

/-- `out[i] = data[i] ^ key[i mod 4]` (41_xor_masking.md R80), the key given by its bytes. -/
def masked (key data : List Byte) : List Byte :=
  data.mapIdx fun i d => d ^^^ key.getD (i % 4) 0

/-- A length is within `FMAX` (43_frame_decoder.md R100). -/
abbrev FitsFrame (s : Machine.State) (n : Nat) : Prop :=
  ∀ fmax, s.cfg.fmax = some fmax → n ≤ fmax

/-- A length is within `LMAX` (42_frame_encoder.md R89). -/
abbrev FitsLength (s : Machine.State) (n : Nat) : Prop :=
  n ≤ s.cfg.lmax.val

/-- The metadata record of a frame with these header fields (43_frame_decoder.md R101, R102). -/
def record (tag : FrameTag) (hasMask : Bool) (headerLength length : Nat) : Machine.Meta where
  fin := tag.fin
  rsv1 := tag.rsv1
  rsv2 := tag.rsv2
  rsv3 := tag.rsv3
  opcode := tag.opcode
  hasMask := hasMask
  length := BitVec.ofNat 64 length
  payloadOffset := if hasMask then headerLength + 4 else headerLength
  headerLength := headerLength

/-- What `DECODE` answers on a whole header with these fields and `rest` after it (43_frame_decoder.md R105,
R108, R109): `rest` holds the key first when `hasMask`. -/
def decoded (policy : TruncPolicy) (tag : FrameTag) (hasMask : Bool) (headerLength length : Nat)
    (rest : List Byte) : Machine.DecodeResponse :=
  let truncated := decide (rest.length < (if hasMask then 4 + length else length))
  if truncated && policy == .fail then .truncatedFrame
  else
    .ok truncated
      (if hasMask then masked (rest.take 4) ((rest.drop 4).take length) else rest.take length)
      (record tag hasMask headerLength length)

/-- The tag of an encoded frame: reserved bits 0, `opcode mod 16` (30_encoding.md R59, R60). -/
def encodedTag (fin : Bool) (opcode : Nat) : FrameTag where
  fin := fin
  rsv1 := false
  rsv2 := false
  rsv3 := false
  opcode := BitVec.ofNat 4 opcode

/-- What `DECODE` answers on any buffer: its frame's answer, or `TruncatedFrame` where the header is not
whole (43_frame_decoder.md R103, R105). -/
def decodeAnswer (policy : TruncPolicy) (frame : List Byte) : Machine.DecodeResponse :=
  match decodeWire frame with
  | .frameMU tag len16 rest => decoded policy tag false 4 len16.toNat rest
  | .frameMK tag len16 rest => decoded policy tag true 4 len16.toNat rest
  | .frameLU tag len64 rest => decoded policy tag false 10 len64.toNat rest
  | .frameLK tag len64 rest => decoded policy tag true 10 len64.toNat rest
  | .frameSU tag len7 rest => decoded policy tag false 2 len7.val rest
  | .frameSK tag len7 rest => decoded policy tag true 2 len7.val rest
  | _ => .truncatedFrame

/-- What `ENCODE` answers, given the random source's answer (42_frame_encoder.md R90, R93). -/
def encodeAnswer (answer : RngAnswer) (payload : List Byte) (opcode : Nat) (fin mask : Bool) :
    Machine.EncodeResponse :=
  if mask then
    match answer with
    | .ok k =>
      .ok (header fin opcode true payload.length ++ keyBytes k ++ masked (keyBytes k) payload)
    | _ => .randomnessUnavailable
  else .ok (header fin opcode false payload.length ++ payload)

/-- The response of an admitted request: a function of the request, the configuration and, for a masked
`ENCODE`, the random source's answer (10_state.md R13). -/
def response (c : Config) (answer : RngAnswer) : Instr → Machine.Response
  | .frameMU tag len16 rest => .decode (decoded c.truncPolicy tag false 4 len16.toNat rest)
  | .frameMK tag len16 rest => .decode (decoded c.truncPolicy tag true 4 len16.toNat rest)
  | .frameLU tag len64 rest => .decode (decoded c.truncPolicy tag false 10 len64.toNat rest)
  | .frameLK tag len64 rest => .decode (decoded c.truncPolicy tag true 10 len64.toNat rest)
  | .frameSU tag len7 rest => .decode (decoded c.truncPolicy tag false 2 len7.val rest)
  | .frameSK tag len7 rest => .decode (decoded c.truncPolicy tag true 2 len7.val rest)
  | .encode payload opcode fin mask => .encode (encodeAnswer answer payload opcode fin mask)
  | .decode frame => .decode (decodeAnswer c.truncPolicy frame)
  | .hdrenc fin opcode mask length => .hdrenc (.ok (header fin opcode mask length))
  | .xormask key data => .xormask (.ok (masked key data))

/-- Which requests are admitted (60_exceptions.md R118). -/
def Admitted (s : Machine.State) : Instr → Prop
  | .frameMU _ _ rest => FitsFrame s (4 + rest.length)
  | .frameMK _ _ rest => FitsFrame s (4 + rest.length)
  | .frameLU _ _ rest => FitsFrame s (10 + rest.length)
  | .frameLK _ _ rest => FitsFrame s (10 + rest.length)
  | .frameSU _ _ rest => FitsFrame s (2 + rest.length)
  | .frameSK _ _ rest => FitsFrame s (2 + rest.length)
  | .encode payload _ _ _ => FitsLength s payload.length
  | .decode frame => FitsFrame s frame.length
  | .hdrenc _ _ _ length => FitsLength s length
  | .xormask key data => key.length = 4 ∧ FitsLength s data.length

/-- Which instructions ask the random source for a key: the masked `ENCODE` alone (10_state.md R31). -/
def drawsKey : Instr → Bool
  | .encode _ _ _ mask => mask
  | _ => false

end Sys2Proof.Spec

namespace Sys2Proof.Machine

/-- Every unit is `IDLE` (10_state.md R15, 70_reset_and_hazards.md R152). -/
abbrev AllIdle (s : State) : Prop :=
  s.fencPhase = .idle ∧ s.fdecPhase = .idle ∧ s.vlhePhase = .idle ∧ s.xmePhase = .idle

/-- The configuration is legal: `OPW >= 4` (00_scope.md R7); `LMAX` is legal by its type. -/
abbrev LegalConfig (c : Config) : Prop :=
  4 ≤ c.opw

/-- What 10_state.md R17 says of every metadata record: `headerLength` is 2, 4 or 10, `payloadOffset =
headerLength + (hasMask ? 4 : 0)`, and the length fits the header form. -/
abbrev LegalMeta (m : Meta) : Prop :=
  (m.headerLength = 2 ∧ m.length.toNat ≤ 125 ∨ m.headerLength = 4 ∧ m.length.toNat ≤ 65535 ∨
    m.headerLength = 10) ∧
  m.payloadOffset = m.headerLength + (if m.hasMask then 4 else 0)

/-- What the rules say of every `DECODE` response: an error, or a payload no longer than declared, exactly
as long when `truncated` is clear, and never `truncated` under `FAIL` (43_frame_decoder.md R106, R108,
R109). -/
def LegalDecodeResponse (policy : TruncPolicy) : DecodeResponse → Prop
  | .truncatedFrame => True
  | .ok truncated payload m =>
    LegalMeta m ∧ payload.length ≤ m.length.toNat ∧
    (truncated = false → payload.length = m.length.toNat) ∧ (policy = .fail → truncated = false)

/-- The shortest `headerLength` that holds a length (40_header_encoder.md R75). -/
def shortestHeader (length : Nat) : Nat :=
  if length ≤ 125 then 2 else if length ≤ 65535 then 4 else 10

/-- What the rules say of every `ENCODE` response: an error, or bytes that are exactly one whole frame with
clear reserved bits in the shortest form (30_encoding.md R58, R60, R63). -/
def LegalEncodeResponse : EncodeResponse → Prop
  | .randomnessUnavailable => True
  | .ok frame =>
    ∃ m, parseHeader frame = some m ∧ m.rsv1 = false ∧ m.rsv2 = false ∧ m.rsv3 = false ∧
      m.headerLength = shortestHeader m.length.toNat ∧
      m.payloadOffset = m.headerLength + (if m.hasMask then 4 else 0) ∧
      frame.length = m.payloadOffset + m.length.toNat

/-- What the rules say of every `HDRENC` response: exactly one whole header with clear reserved bits in the
shortest form (40_header_encoder.md R74, R75). -/
def LegalHdrencResponse : HdrencResponse → Prop
  | .ok header =>
    ∃ m, parseHeader header = some m ∧ m.rsv1 = false ∧ m.rsv2 = false ∧ m.rsv3 = false ∧
      m.headerLength = shortestHeader m.length.toNat ∧ header.length = m.headerLength

/-- The invariant: a legal configuration, every unit `IDLE` between steps, and every response the caller
has been given is one the rules allow. -/
structure Inv (s : State) : Prop where
  legalConfig : LegalConfig s.cfg
  allIdle : AllIdle s
  encodeResponses : ∀ r ∈ s.fencOut, LegalEncodeResponse r
  decodeResponses : ∀ r ∈ s.fdecOut, LegalDecodeResponse s.cfg.truncPolicy r
  hdrencResponses : ∀ r ∈ s.vlheOut, LegalHdrencResponse r
  xormaskResponses : ∀ d, .ok d ∈ s.xmeOut → d.length ≤ s.cfg.lmax.val

end Sys2Proof.Machine
end

