-- ==== Sys2Proof/Certificates/Slice0/Obligations.lean ====
section
/-! DEFINITION. The statements for the provers. Each docstring names the rule of spec/ it formalises.
Results are written with the definitions of `Spec` (Safety.lean): arithmetic and positions, not the way the
meanings compute them. A next state written `{ s with … }` says the whole frame: every field not named is
unchanged. -/

open Sys2Proof Sys2Proof.Machine

/-! ## Encoding -/

/-- 30_encoding.md R52 to R57: every well-formed instruction comes back from its own encoding, with every
operand. -/
def Obligations.DecodeOfEncodeIsTheInstruction : Prop :=
  ∀ (opw : Nat) (i : Instr), i.wf opw → decode opw (encode i) = .ok i

/-- 30_encoding.md R54 to R57: a buffer that holds a whole header is the encoding of the frame instruction
decoded from it, so no bit of it is dropped; a buffer that does not is left to `DECODE`. -/
def Obligations.WholeHeaderBufferIsItsOwnEncoding : Prop :=
  ∀ frame : List Byte,
    (parseHeader frame ≠ none → encode (decodeWire frame) = .wire frame) ∧
    (parseHeader frame = none → decodeWire frame = .decode frame)

/-- 30_encoding.md R55: over the first two bytes exactly one of the six rows holds (the `S` rows with their
constraint LEN7 <= 125), the first match is that row, and it is the row of the decoded instruction, with its
`headerLength` and `payloadOffset`. -/
def Obligations.FormRowsPartitionTheFirstTwoBytes : Prop :=
  (∀ w : BitVec 16, ∃ row, (row ∈ formRows ∧ w &&& row.mask = row.pattern ∧
      (row.headerLength = 2 → (w &&& 0x007F).toNat ≤ 125)) ∧ formRowOf w = some row ∧
    ∀ row', row' ∈ formRows → w &&& row'.mask = row'.pattern →
      (row'.headerLength = 2 → (w &&& 0x007F).toNat ≤ 125) → row' = row) ∧
  ∀ (b0 b1 : Byte) (rest : List Byte) (m : Meta), parseHeader (b0 :: b1 :: rest) = some m →
    ∃ row, formRowOf (b0 ++ b1) = some row ∧ row.mnemonic = (decodeWire (b0 :: b1 :: rest)).mnemonic ∧
      row.headerLength = m.headerLength ∧ row.payloadOffset = m.payloadOffset

/-- 30_encoding.md R53, R55: words written out from the tables of those rules decode to the forms they
stand for. -/
def Obligations.WordsOfTheSpecDecode : Prop :=
  decodeTableWord 16 0b1000000100000000 = some (.frameSU ⟨true, false, false, false, 1⟩ 0 []) ∧
  decodeTableWord 16 0b0100000010000000 = some (.frameSK ⟨false, true, false, false, 0⟩ 0 [0, 0, 0, 0]) ∧
  decodeTableWord 16 0b0010001001111110 = some (.frameMU ⟨false, false, true, false, 2⟩ 0 []) ∧
  decodeTableWord 16 0b0001100111111110 =
    some (.frameMK ⟨false, false, false, true, 9⟩ 0 [0, 0, 0, 0]) ∧
  decodeTableWord 16 0b1111111101111111 = some (.frameLU ⟨true, true, true, true, 15⟩ 0 []) ∧
  decodeTableWord 16 0b0000100011111111 =
    some (.frameLK ⟨false, false, false, false, 8⟩ 0 [0, 0, 0, 0]) ∧
  decodeTableWord 8 0b00 = some (.encode [] 0 false false) ∧
  decodeTableWord 8 0b01 = some (.decode []) ∧
  decodeTableWord 8 0b10 = some (.hdrenc false 0 false 0) ∧
  decodeTableWord 8 0b11 = some (.xormask [0, 0, 0, 0] [])

/-- The decoder answers only with well-formed instructions: what a unit runs has the operand types of
10_state.md R16 to R21. (That an ill-typed record is refused is the model's choice, log entries 3 and 4.) -/
def Obligations.DecodedRequestsAreWellFormed : Prop :=
  ∀ (opw : Nat) (r : Request) (i : Instr), decode opw r = .ok i → i.wf opw

/-- 30_encoding.md R70: the shortened forms of `ENCODE` expand by the defaults, and nothing is optional for
the other three operations. (The last clause also says that their records hold no foreign field; refusing
such a record is the model's choice, log entry 3.) -/
def Obligations.ShortenedCallsExpandByTheDefaults : Prop :=
  ∀ (opw : Nat), 4 ≤ opw → ∀ (p : List Byte) (o : Nat), o < 2 ^ opw →
    decode opw (.call 0 { payload := some p }) = .ok (.encode p 1 true false) ∧
    decode opw (.call 0 { payload := some p, mask := some true }) = .ok (.encode p 1 true true) ∧
    decode opw (.call 0 { payload := some p, opcode := some o }) = .ok (.encode p o true false) ∧
    decode opw (.call 0 { payload := some p, fin := some false }) = .ok (.encode p 1 false false) ∧
    ∀ (u : BitVec 2) (r : RequestRecord) (i : Instr), u ≠ 0 → decode opw (.call u r) = .ok i →
      encode i = .call u r

/-- 30_encoding.md R68: 0 is FENC, 1 FDEC, 2 VLHE, 3 XME; a number selects exactly one operation, each is
used, and what a unit is asked to run is its own operation. -/
def Obligations.UnitNumberSelectsTheOperation : Prop :=
  unitOfNumber 0 = .fenc ∧ unitOfNumber 1 = .fdec ∧ unitOfNumber 2 = .vlhe ∧ unitOfNumber 3 = .xme ∧
  (∀ (opw : Nat) (u : BitVec 2) (r : RequestRecord) (i : Instr), decode opw (.call u r) = .ok i →
    i.unit = unitOfNumber u) ∧
  ∀ (opw : Nat) (u : BitVec 2), ∃ r i, decode opw (.call u r) = .ok i

/-! ## Steps -/

/-- A step runs the decoded instruction: the unit takes the oldest request, is `BUSY` with it, and `exec`
does the rest (00_scope.md R11, 10_state.md R15). -/
def Obligations.StepRunsTheDecodedInstruction : Prop :=
  ∀ (s : State) (r : Request) (rest : List Request) (i : Instr),
    s.resetLine = false → s.requests = r :: rest → decode s.cfg.opw r = .ok i →
    phaseOf s i.unit = .idle →
    step s = exec i (setPhase { s with requests := rest } i.unit .busy)

/-- 10_state.md R15: a request presented to a `BUSY` unit waits, and nothing changes meanwhile (that the
step leaves the whole state as it is, is the model's choice, log entry 16). -/
def Obligations.RequestToABusyUnitWaits : Prop :=
  ∀ (s : State) (r : Request) (rest : List Request) (i : Instr),
    s.resetLine = false → s.requests = r :: rest → decode s.cfg.opw r = .ok i →
    phaseOf s i.unit = .busy → step s = .next s

/-- With no request presented a step changes nothing (the model's choice, log entry 21; 70_reset_and_hazards.md
R152 says only that a run ends there). -/
def Obligations.StepWithoutARequestChangesNothing : Prop :=
  ∀ s : State, s.resetLine = false → s.requests = [] → step s = .next s

/-- A record that is no request of its unit is refused by name (93_implementation_defined.md X2; log
entries 3 and 4). -/
def Obligations.IllTypedRequestIsRefused : Prop :=
  ∀ (s : State) (r : Request) (rest : List Request) (e : DecodeError),
    s.resetLine = false → s.requests = r :: rest → decode s.cfg.opw r = .error e →
    step s = .refused (.illTypedRequest e)

/-- 10_state.md R33, 70_reset_and_hazards.md R135, R136: reset, whatever a unit was doing, leaves every unit
`IDLE` with no result and the configuration as it was. (That requests not yet taken and the random source's
fields stay is the model's choice, log entries 13 and 14.) -/
def Obligations.ResetInputEmptiesTheBlock : Prop :=
  ∀ s : State, s.resetLine = true →
    step s = .next { s with
      fencPhase := .idle, fdecPhase := .idle, vlhePhase := .idle, xmePhase := .idle,
      fencOut := [], fdecOut := [], vlheOut := [], xmeOut := [], resetLine := false }

/-- 10_state.md R33 and the defaults of 00_scope.md R7: the state after reset. (The values of the reset
input and of the random source's fields are the model's choice, log entries 13 and 14, and are not stated.) -/
def Obligations.ResetStateIsEmpty : Prop :=
  AllIdle State.reset ∧ State.reset.fencOut = [] ∧ State.reset.fdecOut = [] ∧ State.reset.vlheOut = [] ∧
  State.reset.xmeOut = [] ∧ State.reset.requests = [] ∧ State.reset.cfg.opw = 8 ∧
  State.reset.cfg.lmax.val = 2 ^ 64 - 1 ∧ State.reset.cfg.fmax = none ∧
  State.reset.cfg.truncPolicy = .clip

/-- A word of the opcode table presented as the next request is what the very next step runs, whatever the
state (the model's own interface, log entry 22). -/
def Obligations.PresentedTableWordRunsNext : Prop :=
  ∀ (s : State) (nbits w : Nat) (i : Instr), decodeTableWord nbits w = some i →
    step (s.withFetchWord nbits w) = exec i (setPhase { s with resetLine := false } i.unit .busy)

/-! ## HDRENC -/

/-- 40_header_encoder.md R73: the header, and nothing else but the unit's phase. -/
def Obligations.HdrencResult : Prop :=
  ∀ (fin : Bool) (opcode : Nat) (mask : Bool) (length : Nat) (s : State), Spec.FitsLength s length →
    exec (.hdrenc fin opcode mask length) s =
      .next { s with
        vlhePhase := .idle
        vlheOut := s.vlheOut ++ [.ok (Spec.header fin opcode mask length)] }

/-- 40_header_encoder.md R72: admitted exactly when `length <= LMAX`, whatever the options; refused above. -/
def Obligations.HdrencAdmission : Prop :=
  ∀ (fin : Bool) (opcode : Nat) (mask : Bool) (length : Nat) (s : State),
    (length ≤ s.cfg.lmax.val → length ≤ 2 ^ 64 - 1 ∧
      ∃ t, exec (.hdrenc fin opcode mask length) s = .next t) ∧
    (s.cfg.lmax.val < length →
      exec (.hdrenc fin opcode mask length) s = .refused .lengthAboveLmax)

/-- 40_header_encoder.md R75: the header's length is 2, 4 or 10 by the payload length alone. -/
def Obligations.HdrencHeaderLength : Prop :=
  ∀ (fin : Bool) (opcode : Nat) (mask : Bool) (length : Nat) (s : State), Spec.FitsLength s length →
    ∃ h : List Byte,
      exec (.hdrenc fin opcode mask length) s =
        .next { s with vlhePhase := .idle, vlheOut := s.vlheOut ++ [.ok h] } ∧
      (length ≤ 125 → h.length = 2) ∧ (126 ≤ length → length ≤ 65535 → h.length = 4) ∧
      (65536 ≤ length → h.length = 10)

/-- 40_header_encoder.md R74: the reserved bits are 0 in everything `HDRENC` and `ENCODE` put out, whatever
the operands. -/
def Obligations.EncodersLeaveReservedBitsClear : Prop :=
  (∀ (fin : Bool) (opcode : Nat) (mask : Bool) (length : Nat) (s : State), Spec.FitsLength s length →
    ∃ (b0 : Byte) (rest : List Byte),
      exec (.hdrenc fin opcode mask length) s =
        .next { s with vlhePhase := .idle, vlheOut := s.vlheOut ++ [.ok (b0 :: rest)] } ∧
      b0.getLsbD 6 = false ∧ b0.getLsbD 5 = false ∧ b0.getLsbD 4 = false) ∧
  ∀ (payload : List Byte) (opcode : Nat) (fin mask : Bool) (s t : State) (f : List Byte),
    exec (.encode payload opcode fin mask) s = .next t → t.fencOut = s.fencOut ++ [.ok f] →
    ∃ (b0 : Byte) (rest : List Byte), f = b0 :: rest ∧
      b0.getLsbD 6 = false ∧ b0.getLsbD 5 = false ∧ b0.getLsbD 4 = false

/-- 40_header_encoder.md R76: with `mask = true` the header differs from the unmasked one in bit 7 of byte 1
alone; no key bytes are produced. -/
def Obligations.HdrencMaskSetsOneBit : Prop :=
  ∀ (fin : Bool) (opcode length : Nat) (s : State), Spec.FitsLength s length →
    ∃ (b0 b1 : Byte) (rest : List Byte), b1.getLsbD 7 = false ∧
      exec (.hdrenc fin opcode false length) s =
        .next { s with vlhePhase := .idle, vlheOut := s.vlheOut ++ [.ok (b0 :: b1 :: rest)] } ∧
      exec (.hdrenc fin opcode true length) s =
        .next { s with
          vlhePhase := .idle
          vlheOut := s.vlheOut ++ [.ok (b0 :: (b1 ||| 0x80) :: rest)] }

/-- 40_header_encoder.md R79: one header for each admitted request, and different (`fin`, `opcode mod 16`,
`mask`, `length`) give different headers. -/
def Obligations.HdrencIsInjective : Prop :=
  (∀ (fin : Bool) (opcode : Nat) (mask : Bool) (length : Nat) (s : State), Spec.FitsLength s length →
    ∃! h : List Byte, exec (.hdrenc fin opcode mask length) s =
      .next { s with vlhePhase := .idle, vlheOut := s.vlheOut ++ [.ok h] }) ∧
  ∀ (fin fin' : Bool) (opcode opcode' : Nat) (mask mask' : Bool) (length length' : Nat) (s t : State),
    exec (.hdrenc fin opcode mask length) s = .next t →
    exec (.hdrenc fin' opcode' mask' length') s = .next t →
    fin = fin' ∧ opcode % 16 = opcode' % 16 ∧ mask = mask' ∧ length = length'

/-! ## XORMASK -/

/-- 41_xor_masking.md R80: each data byte XOR the key byte of its index modulo 4, nothing else changed but
the unit's phase; refused for a key that is not 4 bytes and for data above `LMAX`. -/
def Obligations.XormaskResult : Prop :=
  (∀ (k0 k1 k2 k3 : Byte) (data : List Byte) (s : State), Spec.FitsLength s data.length →
    ∃ out : List Byte,
      exec (.xormask [k0, k1, k2, k3] data) s =
        .next { s with xmePhase := .idle, xmeOut := s.xmeOut ++ [.ok out] } ∧
      out.length = data.length ∧
      ∀ i, i < data.length → out.getD i 0 = data.getD i 0 ^^^ [k0, k1, k2, k3].getD (i % 4) 0) ∧
  (∀ (key data : List Byte) (s : State), key.length ≠ 4 →
    exec (.xormask key data) s = .refused .keyNotFourBytes) ∧
  ∀ (key data : List Byte) (s : State), key.length = 4 → s.cfg.lmax.val < data.length →
    exec (.xormask key data) s = .refused .dataAboveLmax

/-- 41_xor_masking.md R82: masking twice with one key gives the data back, for the function and for the
operation. -/
def Obligations.XormaskIsAnInvolution : Prop :=
  (∀ (k : Key) (data : List Byte), xorMask k (xorMask k data) = data) ∧
  ∀ (key data : List Byte) (s : State), key.length = 4 → Spec.FitsLength s data.length →
    ∃ (out : List Byte) (t : State),
      exec (.xormask key data) s = .next t ∧ t.xmeOut = s.xmeOut ++ [.ok out] ∧
      exec (.xormask key out) t = .next { t with xmeOut := t.xmeOut ++ [.ok data] }

/-- 41_xor_masking.md R83: length; the zero key; locality; and the split law with the key rotated left by
`|a| mod 4`. -/
def Obligations.XormaskLaws : Prop :=
  (∀ (k : Key) (data : List Byte), (xorMask k data).length = data.length) ∧
  (∀ data : List Byte, xorMask ⟨0, 0, 0, 0⟩ data = data) ∧
  (∀ (k k' : Key) (data data' : List Byte) (i : Nat), data[i]? = data'[i]? →
    (keyBytes k)[i % 4]? = (keyBytes k')[i % 4]? → (xorMask k data)[i]? = (xorMask k' data')[i]?) ∧
  (∀ (k k' : Key) (a b : List Byte),
    (∀ j, j < 4 → (keyBytes k')[j]? = (keyBytes k)[(j + a.length % 4) % 4]?) →
    xorMask k (a ++ b) = xorMask k a ++ xorMask k' b) ∧
  ∀ (k : Key) (a b : List Byte), a.length % 4 = 0 → xorMask k (a ++ b) = xorMask k a ++ xorMask k b

/-- 41_xor_masking.md R85: masking chunk by chunk, each chunk but the last a multiple of 4 bytes, is masking
the whole. -/
def Obligations.XormaskByChunks : Prop :=
  ∀ (k : Key) (chunks : List (List Byte)) (tail : List Byte), (∀ c ∈ chunks, c.length % 4 = 0) →
    xorMask k (chunks.flatten ++ tail) = (chunks.map (xorMask k)).flatten ++ xorMask k tail

/-! ## ENCODE -/

/-- 42_frame_encoder.md R90: the three ways an admitted `ENCODE` ends. Unmasked: header and raw payload, the
source untouched. Masked with a key: header, key, masked payload, one answer of 4 bytes used up. Masked
without: `RandomnessUnavailable` alone, no bytes consumed (60_exceptions.md R120; for a short answer, of
which the spec does not say what it consumes, that count is the model's choice, log entry 13). -/
def Obligations.EncodeResult : Prop :=
  ∀ (payload : List Byte) (opcode : Nat) (fin : Bool) (s : State), Spec.FitsLength s payload.length →
    exec (.encode payload opcode fin false) s =
      .next { s with
        fencPhase := .idle
        fencOut := s.fencOut ++ [.ok (Spec.header fin opcode false payload.length ++ payload)] } ∧
    (∀ k0 k1 k2 k3 : Byte, nextAnswer s = .ok ⟨k0, k1, k2, k3⟩ →
      exec (.encode payload opcode fin true) s =
        .next { s with
          fencPhase := .idle
          fencOut := s.fencOut ++ [.ok (Spec.header fin opcode true payload.length ++
            [k0, k1, k2, k3] ++ Spec.masked [k0, k1, k2, k3] payload)]
          rngAnswers := s.rngAnswers.tail
          rngRequests := s.rngRequests + 1
          rngBytes := s.rngBytes + 4 }) ∧
    ((∀ k, nextAnswer s ≠ .ok k) →
      exec (.encode payload opcode fin true) s =
        .next { s with
          fencPhase := .idle
          fencOut := s.fencOut ++ [.randomnessUnavailable]
          rngAnswers := s.rngAnswers.tail
          rngRequests := s.rngRequests + 1 })

/-- 42_frame_encoder.md R93: `RandomnessUnavailable` when and only when `mask = true` and the source answers
no 4-byte key, whatever the payload; the response then is the error alone, after one request, no retry. -/
def Obligations.RandomnessUnavailableExactlyWithoutAKey : Prop :=
  ∀ (payload : List Byte) (opcode : Nat) (fin mask : Bool) (s : State),
    Spec.FitsLength s payload.length →
    ∃ (t : State) (r : EncodeResponse),
      exec (.encode payload opcode fin mask) s = .next t ∧ t.fencOut = s.fencOut ++ [r] ∧
      (r = .randomnessUnavailable ↔ mask = true ∧ ∀ k, nextAnswer s ≠ .ok k) ∧
      t.rngRequests = s.rngRequests + (if mask then 1 else 0)

/-- 42_frame_encoder.md R89: admitted exactly when `|payload| <= LMAX`, with every combination of options;
refused, with no error result, above. -/
def Obligations.EncodeAdmission : Prop :=
  ∀ (payload : List Byte) (opcode : Nat) (fin mask : Bool) (s : State),
    (payload.length ≤ s.cfg.lmax.val → ∃ t, exec (.encode payload opcode fin mask) s = .next t) ∧
    (s.cfg.lmax.val < payload.length →
      exec (.encode payload opcode fin mask) s = .refused .payloadAboveLmax)

/-- 42_frame_encoder.md R91: the lengths and positions of a frame put out with status `OK`, `h` being the
header `HDRENC` gives, and the payload offset `DECODE` will report. -/
def Obligations.EncodedFrameShape : Prop :=
  ∀ (payload : List Byte) (opcode : Nat) (fin mask : Bool) (s t : State) (f : List Byte),
    exec (.encode payload opcode fin mask) s = .next t → t.fencOut = s.fencOut ++ [.ok f] →
    ∃ h : List Byte,
      exec (.hdrenc fin opcode mask payload.length) s =
        .next { s with vlhePhase := .idle, vlheOut := s.vlheOut ++ [.ok h] } ∧
      f.length = h.length + (if mask then 4 else 0) + payload.length ∧
      f.take h.length = h ∧
      (mask = true → ∃ k0 k1 k2 k3 : Byte, nextAnswer s = .ok ⟨k0, k1, k2, k3⟩ ∧
        (f.drop h.length).take 4 = [k0, k1, k2, k3] ∧
        ∀ i, i < payload.length →
          f.getD (h.length + 4 + i) 0 = payload.getD i 0 ^^^ [k0, k1, k2, k3].getD (i % 4) 0) ∧
      (mask = false → ∀ i, i < payload.length → f.getD (h.length + i) 0 = payload.getD i 0) ∧
      ∃ m, parseHeader f = some m ∧ m.payloadOffset = h.length + (if mask then 4 else 0)

/-- 42_frame_encoder.md R92: an unmasked response is a function of the request alone and does not consult
the source; a masked one is a function of the request and the source's answer. -/
def Obligations.EncodeDependsOnRequestAndAnswer : Prop :=
  ∀ (payload : List Byte) (opcode : Nat) (fin mask : Bool) (s s' t t' : State),
    exec (.encode payload opcode fin mask) s = .next t →
    exec (.encode payload opcode fin mask) s' = .next t' →
    (mask = true → nextAnswer s = nextAnswer s') →
    (∃ r, t.fencOut = s.fencOut ++ [r] ∧ t'.fencOut = s'.fencOut ++ [r]) ∧
    (mask = false → t.rngAnswers = s.rngAnswers ∧ t.rngRequests = s.rngRequests ∧
      t.rngBytes = s.rngBytes)

/-- 10_state.md R31: a masked `ENCODE` makes exactly one request to the random source, every other
instruction none; an answer shorter than 4 bytes counts as `Unavailable`. (That a short answer consumes no
bytes, `t.rngBytes = s.rngBytes` in the last clause, is the model's choice, log entry 13.) -/
def Obligations.OnlyMaskedEncodeAsksTheRandomSource : Prop :=
  (∀ (i : Instr) (s t : State), exec i s = .next t →
    (∃ payload opcode fin, i = .encode payload opcode fin true) ∧
        t.rngRequests = s.rngRequests + 1 ∧ t.rngAnswers = s.rngAnswers.tail ∨
    (∀ payload opcode fin, i ≠ .encode payload opcode fin true) ∧
        t.rngRequests = s.rngRequests ∧ t.rngAnswers = s.rngAnswers ∧ t.rngBytes = s.rngBytes) ∧
  ∀ (payload : List Byte) (opcode : Nat) (fin : Bool) (s : State) (n : Fin 4),
    Spec.FitsLength s payload.length → nextAnswer s = .short n →
    ∃ t, exec (.encode payload opcode fin true) s = .next t ∧
      t.fencOut = s.fencOut ++ [.randomnessUnavailable] ∧ t.rngBytes = s.rngBytes

/-- 42_frame_encoder.md R95: two masked `ENCODE`s in a row use two answers of the source, each in its
delivery order, and filter none. -/
def Obligations.EachMaskedEncodeUsesItsOwnAnswer : Prop :=
  ∀ (p p' : List Byte) (o o' : Nat) (f f' : Bool) (s : State) (k k' : Key) (later : List RngAnswer),
    Spec.FitsLength s p.length → Spec.FitsLength s p'.length →
    s.rngAnswers = .ok k :: .ok k' :: later →
    ∃ t t' : State, exec (.encode p o f true) s = .next t ∧ exec (.encode p' o' f' true) t = .next t' ∧
      t'.fencOut = s.fencOut ++
        [.ok (Spec.header f o true p.length ++ keyBytes k ++ Spec.masked (keyBytes k) p),
         .ok (Spec.header f' o' true p'.length ++ keyBytes k' ++ Spec.masked (keyBytes k') p')] ∧
      t'.rngAnswers = later

/-- 30_encoding.md R59: the `opcode` operand counts modulo 16 for `ENCODE` and `HDRENC`, and no value of it
is an error or reaches bits 7..4 of byte 0 (the number `b0.toNat` says all eight bits). -/
def Obligations.OpcodeCountsModulo16 : Prop :=
  ∀ (payload : List Byte) (opcode : Nat) (fin mask : Bool) (length : Nat) (s : State),
    exec (.encode payload opcode fin mask) s = exec (.encode payload (opcode % 16) fin mask) s ∧
    exec (.hdrenc fin opcode mask length) s = exec (.hdrenc fin (opcode % 16) mask length) s ∧
    (Spec.FitsLength s length → ∃ (b0 : Byte) (rest : List Byte),
      exec (.hdrenc fin opcode mask length) s =
        .next { s with vlhePhase := .idle, vlheOut := s.vlheOut ++ [.ok (b0 :: rest)] } ∧
      b0.toNat = (if fin then 128 else 0) + opcode % 16) ∧
    ∀ (t : State) (f : List Byte), exec (.encode payload opcode fin mask) s = .next t →
      t.fencOut = s.fencOut ++ [.ok f] → ∃ (b0 : Byte) (rest : List Byte),
        f = b0 :: rest ∧ b0.toNat = (if fin then 128 else 0) + opcode % 16

/-- 30_encoding.md R58: the form of an encoded frame is chosen by the payload length, the shortest that
holds it, unmasked and masked. -/
def Obligations.EncodeEmitsTheShortestForm : Prop :=
  ∀ (payload : List Byte) (opcode : Nat) (fin mask : Bool) (s t : State) (f : List Byte),
    exec (.encode payload opcode fin mask) s = .next t → t.fencOut = s.fencOut ++ [.ok f] →
    ∃ body : List Byte,
      (∀ h : payload.length ≤ 125, decodeWire f =
        if mask then .frameSK (Spec.encodedTag fin opcode) ⟨payload.length, by omega⟩ body
        else .frameSU (Spec.encodedTag fin opcode) ⟨payload.length, by omega⟩ body) ∧
      (126 ≤ payload.length → payload.length ≤ 65535 → ∃ l : BitVec 16, l.toNat = payload.length ∧
        decodeWire f = if mask then .frameMK (Spec.encodedTag fin opcode) l body
          else .frameMU (Spec.encodedTag fin opcode) l body) ∧
      (65536 ≤ payload.length → ∃ l : BitVec 64, l.toNat = payload.length ∧
        decodeWire f = if mask then .frameLK (Spec.encodedTag fin opcode) l body
          else .frameLU (Spec.encodedTag fin opcode) l body) ∧
      body.length = (if mask then 4 else 0) + payload.length

/-- D20, 40_header_encoder.md R76 and program P3 of 95_test_vectors.md: a masked `ENCODE` gives what the
inner units give: the header of `HDRENC`, the key, the data of `XORMASK`. -/
def Obligations.MaskedEncodeIsHeaderKeyAndMaskedData : Prop :=
  ∀ (payload : List Byte) (opcode : Nat) (fin : Bool) (s : State) (k : Key),
    Spec.FitsLength s payload.length → nextAnswer s = .ok k →
    ∃ (h d : List Byte) (t : State),
      exec (.hdrenc fin opcode true payload.length) s =
        .next { s with vlhePhase := .idle, vlheOut := s.vlheOut ++ [.ok h] } ∧
      exec (.xormask (keyBytes k) payload) s =
        .next { s with xmePhase := .idle, xmeOut := s.xmeOut ++ [.ok d] } ∧
      exec (.encode payload opcode fin true) s = .next t ∧
      t.fencOut = s.fencOut ++ [.ok (h ++ keyBytes k ++ d)]

/-! ## DECODE and the frame forms -/

/-- 43_frame_decoder.md R105 for the three forms without a key, under either policy: `Spec.decoded` says the
payload, the flag and the record; nothing else changes but the unit's phase. -/
def Obligations.UnmaskedFrameResults : Prop :=
  ∀ (tag : FrameTag) (rest : List Byte) (s : State),
    (∀ len7 : Fin 126, Spec.FitsFrame s (2 + rest.length) →
      exec (.frameSU tag len7 rest) s = .next { s with
        fdecPhase := .idle
        fdecOut := s.fdecOut ++ [Spec.decoded s.cfg.truncPolicy tag false 2 len7.val rest] }) ∧
    (∀ len16 : BitVec 16, Spec.FitsFrame s (4 + rest.length) →
      exec (.frameMU tag len16 rest) s = .next { s with
        fdecPhase := .idle
        fdecOut := s.fdecOut ++ [Spec.decoded s.cfg.truncPolicy tag false 4 len16.toNat rest] }) ∧
    ∀ len64 : BitVec 64, Spec.FitsFrame s (10 + rest.length) →
      exec (.frameLU tag len64 rest) s = .next { s with
        fdecPhase := .idle
        fdecOut := s.fdecOut ++ [Spec.decoded s.cfg.truncPolicy tag false 10 len64.toNat rest] }

/-- 43_frame_decoder.md R105 for the three forms with a key. -/
def Obligations.MaskedFrameResults : Prop :=
  ∀ (tag : FrameTag) (rest : List Byte) (s : State),
    (∀ len7 : Fin 126, Spec.FitsFrame s (2 + rest.length) →
      exec (.frameSK tag len7 rest) s = .next { s with
        fdecPhase := .idle
        fdecOut := s.fdecOut ++ [Spec.decoded s.cfg.truncPolicy tag true 2 len7.val rest] }) ∧
    (∀ len16 : BitVec 16, Spec.FitsFrame s (4 + rest.length) →
      exec (.frameMK tag len16 rest) s = .next { s with
        fdecPhase := .idle
        fdecOut := s.fdecOut ++ [Spec.decoded s.cfg.truncPolicy tag true 4 len16.toNat rest] }) ∧
    ∀ len64 : BitVec 64, Spec.FitsFrame s (10 + rest.length) →
      exec (.frameLK tag len64 rest) s = .next { s with
        fdecPhase := .idle
        fdecOut := s.fdecOut ++ [Spec.decoded s.cfg.truncPolicy tag true 10 len64.toNat rest] }

/-- The frame forms above `FMAX` are refused (43_frame_decoder.md R100, D6). -/
def Obligations.FrameFormsAboveFmaxAreRefused : Prop :=
  ∀ (tag : FrameTag) (rest : List Byte) (s : State) (len7 : Fin 126) (len16 : BitVec 16)
    (len64 : BitVec 64),
    (¬ Spec.FitsFrame s (2 + rest.length) →
      exec (.frameSU tag len7 rest) s = .refused .frameAboveFmax ∧
      exec (.frameSK tag len7 rest) s = .refused .frameAboveFmax) ∧
    (¬ Spec.FitsFrame s (4 + rest.length) →
      exec (.frameMU tag len16 rest) s = .refused .frameAboveFmax ∧
      exec (.frameMK tag len16 rest) s = .refused .frameAboveFmax) ∧
    (¬ Spec.FitsFrame s (10 + rest.length) →
      exec (.frameLU tag len64 rest) s = .refused .frameAboveFmax ∧
      exec (.frameLK tag len64 rest) s = .refused .frameAboveFmax)

/-- 30_encoding.md R56, 43_frame_decoder.md R105: `DECODE` of a buffer is, in every state, the frame form
the buffer's first two bytes select, run on its fields: the parser and the encodings agree. -/
def Obligations.DecodeIsItsFrameForm : Prop :=
  ∀ (frame : List Byte) (s : State), exec (.decode frame) s = exec (decodeWire frame) s

/-- 43_frame_decoder.md R105: `DECODE` on any admitted buffer, in the terms of the rule's pseudocode: the
record of `ParseHeader`, `n = min(length, avail)` payload bytes from `payloadOffset` on, unmasked with the
4 bytes at `headerLength`, the flag, and the two ways to `TruncatedFrame`. -/
def Obligations.DecodeResult : Prop :=
  ∀ (frame : List Byte) (s : State), Spec.FitsFrame s frame.length →
    ∃ r : DecodeResponse,
      exec (.decode frame) s =
        .next { s with fdecPhase := .idle, fdecOut := s.fdecOut ++ [r] } ∧
      (parseHeader frame = none → r = .truncatedFrame) ∧
      ∀ m, parseHeader frame = some m →
        r = if frame.length < m.payloadOffset + m.length.toNat ∧ s.cfg.truncPolicy = .fail then
            .truncatedFrame
          else
            .ok (decide (frame.length < m.payloadOffset + m.length.toNat))
              (if m.hasMask then
                Spec.masked ((frame.drop m.headerLength).take 4)
                  ((frame.drop m.payloadOffset).take (min m.length.toNat (frame.length - m.payloadOffset)))
              else (frame.drop m.payloadOffset).take (min m.length.toNat (frame.length - m.payloadOffset)))
              m

/-- 43_frame_decoder.md R103: a header that is not whole is `TruncatedFrame` under both policies, with no
payload and no metadata. (An error under `CLIP` too is the spec's own choice, which its source does not
make: D8, C5, log entry 8.) -/
def Obligations.IncompleteHeaderIsTruncatedFrame : Prop :=
  ∀ (frame : List Byte) (s : State), Spec.FitsFrame s frame.length →
    (frame.length < 2 ∨
      ((frame.getD 1 0).toNat % 128 = 126 ∧ frame.length < 4) ∨
      ((frame.getD 1 0).toNat % 128 = 127 ∧ frame.length < 10)) →
    exec (.decode frame) s =
      .next { s with fdecPhase := .idle, fdecOut := s.fdecOut ++ [.truncatedFrame] }

/-- 43_frame_decoder.md R101: on a whole header under `CLIP` the record's nine fields are those of the rule,
read off the bytes by arithmetic. -/
def Obligations.DecodedRecordFields : Prop :=
  ∀ (b0 b1 : Byte) (rest : List Byte) (s : State), Spec.FitsFrame s (2 + rest.length) →
    s.cfg.truncPolicy = .clip →
    (b1.toNat % 128 = 126 → 2 ≤ rest.length) → (b1.toNat % 128 = 127 → 8 ≤ rest.length) →
    ∃ (truncated : Bool) (payload : List Byte) (m : Meta),
      exec (.decode (b0 :: b1 :: rest)) s =
        .next { s with fdecPhase := .idle, fdecOut := s.fdecOut ++ [.ok truncated payload m] } ∧
      m.fin = decide (128 ≤ b0.toNat) ∧ m.rsv1 = decide (b0.toNat / 64 % 2 = 1) ∧
      m.rsv2 = decide (b0.toNat / 32 % 2 = 1) ∧ m.rsv3 = decide (b0.toNat / 16 % 2 = 1) ∧
      m.opcode.toNat = b0.toNat % 16 ∧ m.hasMask = decide (128 ≤ b1.toNat) ∧
      m.headerLength =
        (if b1.toNat % 128 ≤ 125 then 2 else if b1.toNat % 128 = 126 then 4 else 10) ∧
      m.payloadOffset = m.headerLength + (if m.hasMask then 4 else 0) ∧
      (b1.toNat % 128 ≤ 125 → m.length.toNat = b1.toNat % 128) ∧
      (b1.toNat % 128 = 126 →
        m.length.toNat = (rest.getD 0 0).toNat * 256 + (rest.getD 1 0).toNat) ∧
      (b1.toNat % 128 = 127 →
        m.length.toNat = (rest.take 8).foldl (fun acc b => acc * 256 + b.toNat) 0)

/-- 43_frame_decoder.md R108: on a truncated buffer `CLIP` returns the bytes that are there with the flag set
and the metadata as declared, `FAIL` the error alone; on any other buffer both answer alike. -/
def Obligations.TruncationPolicies : Prop :=
  ∀ (frame : List Byte) (m : Meta) (s : State), Spec.FitsFrame s frame.length →
    parseHeader frame = some m →
    (frame.length < m.payloadOffset + m.length.toNat → s.cfg.truncPolicy = .clip →
      ∃ payload : List Byte,
        exec (.decode frame) s =
          .next { s with fdecPhase := .idle, fdecOut := s.fdecOut ++ [.ok true payload m] } ∧
        payload.length = min m.length.toNat (frame.length - m.payloadOffset) ∧
        ∀ i, i < payload.length → payload.getD i 0 = frame.getD (m.payloadOffset + i) 0 ^^^
          (if m.hasMask then frame.getD (m.headerLength + i % 4) 0 else 0)) ∧
    (frame.length < m.payloadOffset + m.length.toNat → s.cfg.truncPolicy = .fail →
      exec (.decode frame) s =
        .next { s with fdecPhase := .idle, fdecOut := s.fdecOut ++ [.truncatedFrame] }) ∧
    (m.payloadOffset + m.length.toNat ≤ frame.length →
      ∃ payload : List Byte, ∀ policy : TruncPolicy,
        exec (.decode frame) { s with cfg := { s.cfg with truncPolicy := policy } } =
          .next { s with
            cfg := { s.cfg with truncPolicy := policy }
            fdecPhase := .idle
            fdecOut := s.fdecOut ++ [.ok false payload m] })

/-- 43_frame_decoder.md R109: the flag is `payloadOffset + length > N` on naturals; it is set exactly in the
three cases the rule lists; and a caller can tell it from the lengths. -/
def Obligations.TruncatedFlagCases : Prop :=
  ∀ (frame payload : List Byte) (truncated : Bool) (m : Meta) (s t : State),
    exec (.decode frame) s = .next t → t.fdecOut = s.fdecOut ++ [.ok truncated payload m] →
    (truncated = true ↔ frame.length < m.payloadOffset + m.length.toNat) ∧
    (truncated = true ↔
      (m.payloadOffset < frame.length ∧ frame.length - m.payloadOffset < m.length.toNat) ∨
      (frame.length ≤ m.payloadOffset ∧ 0 < m.length.toNat) ∨
      (m.length.toNat = 0 ∧ m.hasMask = true ∧ m.headerLength ≤ frame.length ∧
        frame.length < m.headerLength + 4)) ∧
    (truncated = true ↔ payload.length < m.length.toNat ∨
      frame.length < m.payloadOffset + m.length.toNat) ∧
    (truncated = true → s.cfg.truncPolicy = .clip)

/-- 43_frame_decoder.md R106: the record of an `OK` response is that of the header as declared, and the
payload has `min(length, avail)` bytes, fewer than declared exactly when truncated with `length > avail`. -/
def Obligations.MetadataIsAsDeclared : Prop :=
  ∀ (frame payload : List Byte) (truncated : Bool) (m : Meta) (s t : State),
    exec (.decode frame) s = .next t → t.fdecOut = s.fdecOut ++ [.ok truncated payload m] →
    parseHeader frame = some m ∧
    payload.length = min m.length.toNat (frame.length - m.payloadOffset) ∧
    (payload.length < m.length.toNat ↔
      truncated = true ∧ frame.length - m.payloadOffset < m.length.toNat)

/-- 43_frame_decoder.md R112: bytes after a whole frame do not change the response. -/
def Obligations.BytesAfterTheFrameAreIgnored : Prop :=
  ∀ (frame extra payload : List Byte) (m : Meta) (s : State),
    exec (.decode frame) s =
      .next { s with fdecPhase := .idle, fdecOut := s.fdecOut ++ [.ok false payload m] } →
    Spec.FitsFrame s (frame ++ extra).length →
    exec (.decode (frame ++ extra)) s =
      .next { s with fdecPhase := .idle, fdecOut := s.fdecOut ++ [.ok false payload m] }

/-- 43_frame_decoder.md R100: admitted exactly when `N <= FMAX`, whatever the bytes; refused above. -/
def Obligations.DecodeAdmission : Prop :=
  ∀ (frame : List Byte) (s : State),
    (s.cfg.fmax = none → ∃ t, exec (.decode frame) s = .next t) ∧
    ∀ fmax, s.cfg.fmax = some fmax →
      (frame.length ≤ fmax → ∃ t, exec (.decode frame) s = .next t) ∧
      (fmax < frame.length → exec (.decode frame) s = .refused .frameAboveFmax)

/-- 43_frame_decoder.md R104, 30_encoding.md R65: a length in a longer form than it needs is decoded as
written; `headerLength` follows LEN7. -/
def Obligations.NonMinimalLengthIsDecodedAsWritten : Prop :=
  ∀ (tag : FrameTag) (payload : List Byte) (s : State),
    (∀ len16 : BitVec 16, len16.toNat = payload.length → Spec.FitsFrame s (4 + payload.length) →
      exec (.decode (frameBytesM tag false len16 payload)) s = .next { s with
        fdecPhase := .idle
        fdecOut := s.fdecOut ++ [.ok false payload ⟨tag.fin, tag.rsv1, tag.rsv2, tag.rsv3, tag.opcode,
          false, BitVec.ofNat 64 payload.length, 4, 4⟩] }) ∧
    ∀ len64 : BitVec 64, len64.toNat = payload.length → Spec.FitsFrame s (10 + payload.length) →
      exec (.decode (frameBytesL tag false len64 payload)) s = .next { s with
        fdecPhase := .idle
        fdecOut := s.fdecOut ++ [.ok false payload ⟨tag.fin, tag.rsv1, tag.rsv2, tag.rsv3, tag.opcode,
          false, len64, 10, 10⟩] }

/-- 43_frame_decoder.md R107, 20_memory.md R36: no read leaves its buffer, so nothing faults. -/
def Obligations.NothingFaults : Prop :=
  (∀ (i : Instr) (s : State) (f : Fault), exec i s ≠ .fault f) ∧
  ∀ (s : State) (f : Fault), step s ≠ .fault f

/-- 43_frame_decoder.md R113, the round trip: whatever `ENCODE` puts out with status `OK`, for every option,
payload and key, `DECODE` gives back, under either policy, if the frame is within `FMAX`. -/
def Obligations.DecodeInvertsEncode : Prop :=
  ∀ (payload : List Byte) (opcode : Nat) (fin mask : Bool) (s t : State) (f : List Byte),
    exec (.encode payload opcode fin mask) s = .next t → t.fencOut = s.fencOut ++ [.ok f] →
    Spec.FitsFrame t f.length →
    ∃ h : List Byte,
      exec (.hdrenc fin opcode mask payload.length) s =
        .next { s with vlhePhase := .idle, vlheOut := s.vlheOut ++ [.ok h] } ∧
      exec (.decode f) t = .next { t with
        fdecPhase := .idle
        fdecOut := t.fdecOut ++ [.ok false payload
          { fin := fin, rsv1 := false, rsv2 := false, rsv3 := false, opcode := BitVec.ofNat 4 opcode,
            hasMask := mask, length := BitVec.ofNat 64 payload.length,
            payloadOffset := h.length + (if mask then 4 else 0), headerLength := h.length }] }

/-- 60_exceptions.md R126: a `DECODE` that failed fails again, in the same way, when reissued. -/
def Obligations.ReissuedDecodeAnswersTheSame : Prop :=
  ∀ (frame : List Byte) (s t : State) (r : DecodeResponse),
    exec (.decode frame) s = .next t → t.fdecOut = s.fdecOut ++ [r] →
    exec (.decode frame) t = .next { t with fdecOut := t.fdecOut ++ [r] }

/-- 70_reset_and_hazards.md R142, program P4: a buffer with a frame in front yields that frame, and the
caller finds what follows it at `payloadOffset + length`. -/
def Obligations.FirstOfSeveralFrames : Prop :=
  ∀ (payload : List Byte) (opcode : Nat) (fin mask : Bool) (s t : State) (f more : List Byte),
    exec (.encode payload opcode fin mask) s = .next t → t.fencOut = s.fencOut ++ [.ok f] →
    Spec.FitsFrame t (f ++ more).length →
    ∃ m : Meta,
      exec (.decode (f ++ more)) t =
        .next { t with fdecPhase := .idle, fdecOut := t.fdecOut ++ [.ok false payload m] } ∧
      (f ++ more).drop (m.payloadOffset + m.length.toNat) = more

/-! ## The whole machine -/

/-- The frame of every instruction: the configuration, the pending requests, the reset input and every other
unit's phase and responses are unchanged; its own unit is `IDLE` with exactly one response more; the random
source is touched by a masked `ENCODE` alone (10_state.md R13, R14, R24; 60_exceptions.md R120). -/
def Obligations.EveryInstructionKeepsItsFrame : Prop :=
  ∀ (i : Instr) (s t : State), exec i s = .next t →
    t.cfg = s.cfg ∧ t.requests = s.requests ∧ t.resetLine = s.resetLine ∧
    (∀ u, phaseOf t u = if u = i.unit then .idle else phaseOf s u) ∧
    (if i.unit = .fenc then ∃ r, t.fencOut = s.fencOut ++ [r] else t.fencOut = s.fencOut) ∧
    (if i.unit = .fdec then ∃ r, t.fdecOut = s.fdecOut ++ [r] else t.fdecOut = s.fdecOut) ∧
    (if i.unit = .vlhe then ∃ r, t.vlheOut = s.vlheOut ++ [r] else t.vlheOut = s.vlheOut) ∧
    (if i.unit = .xme then ∃ r, t.xmeOut = s.xmeOut ++ [r] else t.xmeOut = s.xmeOut) ∧
    ((∀ p o f, i ≠ .encode p o f true) →
      t.rngAnswers = s.rngAnswers ∧ t.rngRequests = s.rngRequests ∧ t.rngBytes = s.rngBytes)

/-- 10_state.md R13: a response is a function of the configuration, the request and, for a masked `ENCODE`,
the source's answer. Two states that agree on these, and differ in anything else, give equal responses: no
transaction can tell what went before it. -/
def Obligations.ResponsesDependOnTheRequestAlone : Prop :=
  ∃ respond : Config → RngAnswer → Instr → Response,
    (∀ (i : Instr) (s t : State), exec i s = .next t →
      ∃ s' : State, t = finish (respond s.cfg (nextAnswer s) i) s' ∧ s'.fencOut = s.fencOut ∧
        s'.fdecOut = s.fdecOut ∧ s'.vlheOut = s.vlheOut ∧ s'.xmeOut = s.xmeOut) ∧
    (∀ (c : Config) (a a' : RngAnswer) (i : Instr), (∀ p o f, i ≠ .encode p o f true) →
      respond c a i = respond c a' i) ∧
    ∀ (i : Instr) (s s' : State), s.cfg = s'.cfg →
      ((∃ t, exec i s = .next t) ↔ ∃ t, exec i s' = .next t)

/-- 20_memory.md R46: transactions on different units commute: either order gives the same state, so no
response depends on the order. -/
def Obligations.DifferentUnitsCommute : Prop :=
  ∀ (i j : Instr) (s t u : State), i.unit ≠ j.unit → exec i s = .next t → exec j t = .next u →
    ∃ v, exec j s = .next v ∧ exec i v = .next u

/-- 70_reset_and_hazards.md R151, 60_exceptions.md R118, R128: every admitted request ends, in one step, with
a response; every other is refused. -/
def Obligations.AdmittedRequestsAreAnsweredOthersRefused : Prop :=
  ∀ (i : Instr) (s : State),
    (Spec.Admitted s i → ∃ t, exec i s = .next t ∧ phaseOf t i.unit = .idle) ∧
    (¬ Spec.Admitted s i → ∃ r, exec i s = .refused r)

/-- 10_state.md R22, 60_exceptions.md R116: the codes, and which status each operation can carry: `HDRENC`
and `XORMASK` only `OK`, `RandomnessUnavailable` only a masked `ENCODE`, `TruncatedFrame` only FDEC. -/
def Obligations.StatusOfEachOperation : Prop :=
  statusCode .ok = 0 ∧ statusCode .randomnessUnavailable = 1 ∧ statusCode .truncatedFrame = 2 ∧
  ∀ (i : Instr) (s t : State), exec i s = .next t →
    ∃ (r : Response) (s' : State), t = finish r s' ∧ s'.fencOut = s.fencOut ∧ s'.fdecOut = s.fdecOut ∧
      s'.vlheOut = s.vlheOut ∧ s'.xmeOut = s.xmeOut ∧ responder r = i.unit ∧
      (responseStatus r = .ok ∨
        (responseStatus r = .randomnessUnavailable ∧ ∃ p o f, i = .encode p o f true) ∨
        (responseStatus r = .truncatedFrame ∧ i.unit = .fdec))

/-- Every step keeps the invariant: a legal configuration, every unit `IDLE` between steps, and every
response given one that the rules allow (10_state.md R15, R17; 30_encoding.md R58, R63; 40_header_encoder.md
R74, R75; 43_frame_decoder.md R106, R108, R109). -/
def Obligations.StepKeepsTheInvariant : Prop :=
  ∀ s t : State, Inv s → step s = .next t → Inv t

/-- The invariant holds after reset. -/
def Obligations.ResetMeetsTheInvariant : Prop :=
  Inv State.reset

/-- 10_state.md R24: no step, not even reset, changes the configuration. -/
def Obligations.ConfigurationNeverChanges : Prop :=
  ∀ s t : State, step s = .next t → t.cfg = s.cfg

/-- 70_reset_and_hazards.md R136: after a reset every admitted request is served like any other: whatever a
unit was `BUSY` with, the step after the reset answers the oldest request. -/
def Obligations.FirstRequestAfterResetIsServed : Prop :=
  ∀ (s : State) (r : Request) (rest : List Request) (i : Instr),
    s.resetLine = true → s.requests = r :: rest → decode s.cfg.opw r = .ok i → Spec.Admitted s i →
    ∃ t u : State, step s = .next t ∧ step t = .next u ∧ u.requests = rest ∧ AllIdle u ∧
      u.fencOut.length + u.fdecOut.length + u.vlheOut.length + u.xmeOut.length = 1
end

