-- ==== Sys2Proof/Laws/Bytes.lean ====
section
/-! SUPPORT. What the byte and buffer primitives do, one spec lemma each. -/

namespace Sys2Proof

@[simp] theorem tagOf_byte0 (t : FrameTag) : tagOf (byte0 t) = t := by
  obtain ⟨f, a, b, c, op⟩ := t
  cases f <;> cases a <;> cases b <;> cases c <;> revert op <;> decide

@[simp] theorem maskOf_byte1 (m : Bool) (l : BitVec 7) : maskOf (byte1 m l) = m := by
  cases m <;> revert l <;> decide

@[simp] theorem len7Of_byte1 (m : Bool) (l : BitVec 7) : len7Of (byte1 m l) = l := by
  cases m <;> revert l <;> decide

@[simp] theorem byte0_tagOf (b : Byte) : byte0 (tagOf b) = b := by
  revert b; decide

@[simp] theorem byte1_fields (b : Byte) : byte1 (maskOf b) (len7Of b) = b := by
  revert b; decide

/-- `emit` appends (00_scope.md R10). -/
@[simp] theorem emit_eq_append (out v : List Byte) : emit out v = out ++ v := by
  simp [emit, memWrite]

/-- What `memRead` answers, and when (20_memory.md R36). -/
theorem memRead_eq_some_iff {buf v : List Byte} {off n : Nat} :
    memRead buf off n = some v ↔ off + n ≤ buf.length ∧ v = (buf.drop off).take n := by
  unfold memRead
  split <;> simp_all [eq_comm]

/-- `memRead` answers exactly inside the buffer. -/
theorem memRead_isSome {buf : List Byte} {off n : Nat} :
    (memRead buf off n).isSome ↔ off + n ≤ buf.length := by
  unfold memRead
  split <;> simp_all

theorem memRead_eq_none_iff {buf : List Byte} {off n : Nat} :
    memRead buf off n = none ↔ buf.length < off + n := by
  unfold memRead
  split <;> simp_all

theorem memRead_length {buf v : List Byte} {off n : Nat} (h : memRead buf off n = some v) :
    v.length = n := by
  obtain ⟨hb, rfl⟩ := memRead_eq_some_iff.1 h
  simp; omega

@[simp] theorem keyOfBytes_keyBytes (k : Key) : keyOfBytes (keyBytes k) = some k := rfl

@[simp] theorem keyBytes_length (k : Key) : (keyBytes k).length = 4 := rfl

/-- Four bytes are a key, whose bytes they are. -/
theorem keyOfBytes_of_length {s : List Byte} (h : s.length = 4) :
    ∃ k, keyOfBytes s = some k ∧ keyBytes k = s := by
  match s, h with
  | [a, b, c, d], _ => exact ⟨⟨a, b, c, d⟩, rfl, rfl⟩

theorem keyOfBytes_eq_none {s : List Byte} (h : s.length ≠ 4) : keyOfBytes s = none := by
  unfold keyOfBytes
  split
  · simp at h
  · rfl

/-! ## Byte order -/

@[simp] theorem be16_length (v : BitVec 16) : (be16 v).length = 2 := rfl

@[simp] theorem be64_length (v : BitVec 64) : (be64 v).length = 8 := rfl

theorem extractByte_toNat {w : Nat} (v : BitVec w) (k : Nat) :
    (v.extractLsb' k 8).toNat = v.toNat / 2 ^ k % 256 := by
  simp [BitVec.extractLsb'_toNat, Nat.shiftRight_eq_div_pow]

/-- `from_be` inverts `be16` (00_scope.md R9). -/
@[simp] theorem fromBe_be16 (v : BitVec 16) : fromBe (be16 v) = v.toNat := by
  have h := v.isLt
  simp only [fromBe, be16, fromBeOnto, extractByte_toNat]
  omega

/-- `from_be` inverts `be64` (00_scope.md R9). -/
@[simp] theorem fromBe_be64 (v : BitVec 64) : fromBe (be64 v) = v.toNat := by
  have h := v.isLt
  simp only [fromBe, be64, fromBeOnto, extractByte_toNat]
  omega

theorem fromBeOnto_lt (s : List Byte) (acc : Nat) :
    fromBeOnto acc s < (acc + 1) * 256 ^ s.length := by
  induction s generalizing acc with
  | nil => simp [fromBeOnto]
  | cons b s ih =>
    have hb := b.isLt
    have h1 := ih (acc * 256 + b.toNat)
    have h2 : (acc * 256 + b.toNat + 1) * 256 ^ s.length ≤ (acc + 1) * 256 * 256 ^ s.length :=
      Nat.mul_le_mul_right _ (by omega)
    simp only [fromBeOnto, List.length_cons, pow_succ]
    calc _ < _ := h1
      _ ≤ _ := h2
      _ = _ := by ring

/-- `from_be` of `n` bytes is below `256^n`. -/
theorem fromBe_lt (s : List Byte) : fromBe s < 256 ^ s.length := by
  simpa [fromBe] using fromBeOnto_lt s 0

/-- `be16` inverts `from_be` on two bytes. -/
theorem be16_fromBe (a b : Byte) : be16 (BitVec.ofNat 16 (fromBe [a, b])) = [a, b] := by
  have ha := a.isLt
  have hb := b.isLt
  simp only [be16, fromBe, fromBeOnto, List.cons.injEq, and_true]
  constructor <;> apply BitVec.eq_of_toNat_eq <;> rw [extractByte_toNat] <;>
    simp only [BitVec.toNat_ofNat] <;> omega

/-- `be64` inverts `from_be` on eight bytes. -/
theorem be64_fromBe (a b c d e f g h : Byte) :
    be64 (BitVec.ofNat 64 (fromBe [a, b, c, d, e, f, g, h])) = [a, b, c, d, e, f, g, h] := by
  have := a.isLt; have := b.isLt; have := c.isLt; have := d.isLt
  have := e.isLt; have := f.isLt; have := g.isLt; have := h.isLt
  simp only [be64, fromBe, fromBeOnto, List.cons.injEq, and_true]
  refine ⟨?_, ?_, ?_, ?_, ?_, ?_, ?_, ?_⟩ <;> apply BitVec.eq_of_toNat_eq <;>
    rw [extractByte_toNat] <;> simp only [BitVec.toNat_ofNat] <;> omega

end Sys2Proof
end

