-- ==== Sys2Proof/Laws/State.lean ====
section
/-! SUPPORT. One lemma per field per update of the state, so that no later proof unfolds a record update. -/

namespace Sys2Proof.Machine

/-! ## `setPhase` -/

@[simp] theorem setPhase_cfg (s : State) (u : UnitId) (p : Phase) : (setPhase s u p).cfg = s.cfg := by
  cases u <;> rfl

@[simp] theorem setPhase_fencOut (s : State) (u : UnitId) (p : Phase) :
    (setPhase s u p).fencOut = s.fencOut := by cases u <;> rfl

@[simp] theorem setPhase_fdecOut (s : State) (u : UnitId) (p : Phase) :
    (setPhase s u p).fdecOut = s.fdecOut := by cases u <;> rfl

@[simp] theorem setPhase_vlheOut (s : State) (u : UnitId) (p : Phase) :
    (setPhase s u p).vlheOut = s.vlheOut := by cases u <;> rfl

@[simp] theorem setPhase_xmeOut (s : State) (u : UnitId) (p : Phase) :
    (setPhase s u p).xmeOut = s.xmeOut := by cases u <;> rfl

@[simp] theorem setPhase_requests (s : State) (u : UnitId) (p : Phase) :
    (setPhase s u p).requests = s.requests := by cases u <;> rfl

@[simp] theorem setPhase_resetLine (s : State) (u : UnitId) (p : Phase) :
    (setPhase s u p).resetLine = s.resetLine := by cases u <;> rfl

@[simp] theorem setPhase_rngAnswers (s : State) (u : UnitId) (p : Phase) :
    (setPhase s u p).rngAnswers = s.rngAnswers := by cases u <;> rfl

@[simp] theorem setPhase_rngRequests (s : State) (u : UnitId) (p : Phase) :
    (setPhase s u p).rngRequests = s.rngRequests := by cases u <;> rfl

@[simp] theorem setPhase_rngBytes (s : State) (u : UnitId) (p : Phase) :
    (setPhase s u p).rngBytes = s.rngBytes := by cases u <;> rfl

/-- Reading a phase after setting one. -/
theorem phaseOf_setPhase (s : State) (u v : UnitId) (p : Phase) :
    phaseOf (setPhase s u p) v = if v = u then p else phaseOf s v := by
  cases u <;> cases v <;> rfl

@[simp] theorem phaseOf_setPhase_self (s : State) (u : UnitId) (p : Phase) :
    phaseOf (setPhase s u p) u = p := by cases u <;> rfl

/-! ## `finish` and `raise`: one lemma per kind of response -/

@[simp] theorem finish_encode (r : EncodeResponse) (s : State) :
    finish (.encode r) s = { s with fencPhase := .idle, fencOut := s.fencOut ++ [r] } := rfl

@[simp] theorem finish_decode (r : DecodeResponse) (s : State) :
    finish (.decode r) s = { s with fdecPhase := .idle, fdecOut := s.fdecOut ++ [r] } := rfl

@[simp] theorem finish_hdrenc (r : HdrencResponse) (s : State) :
    finish (.hdrenc r) s = { s with vlhePhase := .idle, vlheOut := s.vlheOut ++ [r] } := rfl

@[simp] theorem finish_xormask (r : XormaskResponse) (s : State) :
    finish (.xormask r) s = { s with xmePhase := .idle, xmeOut := s.xmeOut ++ [r] } := rfl

@[simp] theorem raise_randomnessUnavailable (s : State) :
    raise .randomnessUnavailable s =
      { s with fencPhase := .idle, fencOut := s.fencOut ++ [.randomnessUnavailable] } := rfl

@[simp] theorem raise_truncatedFrame (s : State) :
    raise .truncatedFrame s =
      { s with fdecPhase := .idle, fdecOut := s.fdecOut ++ [.truncatedFrame] } := rfl

@[simp] theorem finish_cfg (r : Response) (s : State) : (finish r s).cfg = s.cfg := by cases r <;> rfl

@[simp] theorem finish_requests (r : Response) (s : State) : (finish r s).requests = s.requests := by
  cases r <;> rfl

@[simp] theorem finish_resetLine (r : Response) (s : State) : (finish r s).resetLine = s.resetLine := by
  cases r <;> rfl

@[simp] theorem finish_rngAnswers (r : Response) (s : State) :
    (finish r s).rngAnswers = s.rngAnswers := by cases r <;> rfl

@[simp] theorem finish_rngRequests (r : Response) (s : State) :
    (finish r s).rngRequests = s.rngRequests := by cases r <;> rfl

@[simp] theorem finish_rngBytes (r : Response) (s : State) : (finish r s).rngBytes = s.rngBytes := by
  cases r <;> rfl

/-- The unit that responds is `IDLE` afterwards and the others keep their phase. -/
theorem phaseOf_finish (r : Response) (s : State) (u : UnitId) :
    phaseOf (finish r s) u = if u = responder r then .idle else phaseOf s u := by
  cases r <;> cases u <;> rfl

/-! ## `afterRequest` -/

@[simp] theorem afterRequest_cfg (s : State) : (afterRequest s).cfg = s.cfg := rfl
@[simp] theorem afterRequest_fencPhase (s : State) : (afterRequest s).fencPhase = s.fencPhase := rfl
@[simp] theorem afterRequest_fdecPhase (s : State) : (afterRequest s).fdecPhase = s.fdecPhase := rfl
@[simp] theorem afterRequest_vlhePhase (s : State) : (afterRequest s).vlhePhase = s.vlhePhase := rfl
@[simp] theorem afterRequest_xmePhase (s : State) : (afterRequest s).xmePhase = s.xmePhase := rfl
@[simp] theorem afterRequest_fencOut (s : State) : (afterRequest s).fencOut = s.fencOut := rfl
@[simp] theorem afterRequest_fdecOut (s : State) : (afterRequest s).fdecOut = s.fdecOut := rfl
@[simp] theorem afterRequest_vlheOut (s : State) : (afterRequest s).vlheOut = s.vlheOut := rfl
@[simp] theorem afterRequest_xmeOut (s : State) : (afterRequest s).xmeOut = s.xmeOut := rfl
@[simp] theorem afterRequest_requests (s : State) : (afterRequest s).requests = s.requests := rfl
@[simp] theorem afterRequest_resetLine (s : State) : (afterRequest s).resetLine = s.resetLine := rfl
@[simp] theorem afterRequest_rngAnswers (s : State) : (afterRequest s).rngAnswers = s.rngAnswers.tail := rfl

@[simp] theorem afterRequest_rngRequests (s : State) :
    (afterRequest s).rngRequests = s.rngRequests + 1 := rfl

@[simp] theorem afterRequest_rngBytes (s : State) :
    (afterRequest s).rngBytes =
      s.rngBytes + (if (keyDelivered (nextAnswer s)).isSome then 4 else 0) := rfl

/-! ## `applyReset` -/

@[simp] theorem applyReset_cfg (s : State) : (applyReset s).cfg = s.cfg := rfl
@[simp] theorem applyReset_phaseOf (s : State) (u : UnitId) : phaseOf (applyReset s) u = .idle := by
  cases u <;> rfl
@[simp] theorem applyReset_fencOut (s : State) : (applyReset s).fencOut = [] := rfl
@[simp] theorem applyReset_fdecOut (s : State) : (applyReset s).fdecOut = [] := rfl
@[simp] theorem applyReset_vlheOut (s : State) : (applyReset s).vlheOut = [] := rfl
@[simp] theorem applyReset_xmeOut (s : State) : (applyReset s).xmeOut = [] := rfl
@[simp] theorem applyReset_requests (s : State) : (applyReset s).requests = s.requests := rfl
@[simp] theorem applyReset_resetLine (s : State) : (applyReset s).resetLine = false := rfl
@[simp] theorem applyReset_rngAnswers (s : State) : (applyReset s).rngAnswers = s.rngAnswers := rfl
@[simp] theorem applyReset_rngRequests (s : State) : (applyReset s).rngRequests = s.rngRequests := rfl
@[simp] theorem applyReset_rngBytes (s : State) : (applyReset s).rngBytes = s.rngBytes := rfl

/-! ## `takeRequest` -/

@[simp] theorem takeRequest_cfg (s : State) (u : UnitId) (rest : List Request) :
    (takeRequest s u rest).cfg = s.cfg := by cases u <;> rfl

@[simp] theorem takeRequest_requests (s : State) (u : UnitId) (rest : List Request) :
    (takeRequest s u rest).requests = rest := by cases u <;> rfl

@[simp] theorem takeRequest_fencOut (s : State) (u : UnitId) (rest : List Request) :
    (takeRequest s u rest).fencOut = s.fencOut := by cases u <;> rfl

@[simp] theorem takeRequest_fdecOut (s : State) (u : UnitId) (rest : List Request) :
    (takeRequest s u rest).fdecOut = s.fdecOut := by cases u <;> rfl

@[simp] theorem takeRequest_vlheOut (s : State) (u : UnitId) (rest : List Request) :
    (takeRequest s u rest).vlheOut = s.vlheOut := by cases u <;> rfl

@[simp] theorem takeRequest_xmeOut (s : State) (u : UnitId) (rest : List Request) :
    (takeRequest s u rest).xmeOut = s.xmeOut := by cases u <;> rfl

@[simp] theorem takeRequest_resetLine (s : State) (u : UnitId) (rest : List Request) :
    (takeRequest s u rest).resetLine = s.resetLine := by cases u <;> rfl

/-- The unit that takes a request is `BUSY` and the others keep their phase. -/
theorem phaseOf_takeRequest (s : State) (u v : UnitId) (rest : List Request) :
    phaseOf (takeRequest s u rest) v = if v = u then .busy else phaseOf s v := by
  cases u <;> cases v <;> rfl

end Sys2Proof.Machine
end

