-- ==== Sys2Proof/Laws/Units.lean ====
section
/-! SUPPORT. What each unit's functions do, one spec lemma each: `xorMask`, `hdrEnc`, `parseHeader`,
`decodeWire`, `readPayload`, `decodeParsed`. Later proofs cite these and do not unfold them. -/

namespace Sys2Proof.Machine

/-! ## `xorMask` -/

@[simp] theorem xorMaskFrom_length (k : Key) (i : Nat) (d : List Byte) :
    (xorMaskFrom k i d).length = d.length := by
  induction d generalizing i with
  | nil => rfl
  | cons b d ih => simp [xorMaskFrom, ih]

@[simp] theorem xorMask_length (k : Key) (d : List Byte) : (xorMask k d).length = d.length :=
  xorMaskFrom_length k 0 d

@[simp] theorem xorMask_nil (k : Key) : xorMask k [] = [] := rfl

theorem xorMaskFrom_getElem? (k : Key) (j : Nat) (d : List Byte) (i : Nat) :
    (xorMaskFrom k j d)[i]? = d[i]?.map (· ^^^ keyByte k (j + i)) := by
  induction d generalizing i j with
  | nil => simp [xorMaskFrom]
  | cons b d ih =>
    cases i with
    | zero => simp [xorMaskFrom]
    | succ i => simp [xorMaskFrom, ih, Nat.add_comm 1 i, Nat.add_assoc]

/-- The rule itself: output byte `i` is data byte `i` XOR key byte `i mod 4` (41_xor_masking.md R80). -/
theorem xorMask_getElem? (k : Key) (d : List Byte) (i : Nat) :
    (xorMask k d)[i]? = d[i]?.map (· ^^^ keyByte k i) := by
  rw [xorMask, xorMaskFrom_getElem?, Nat.zero_add]

theorem keyByte_eq_getD (k : Key) (i : Nat) : keyByte k i = (keyBytes k).getD (i % 4) 0 := by
  have h : i % 4 = 0 ∨ i % 4 = 1 ∨ i % 4 = 2 ∨ i % 4 = 3 := by omega
  rcases h with h | h | h | h <;> simp [keyByte, keyBytes, h]

theorem xorMask_eq_masked (k : Key) (d : List Byte) : xorMask k d = Spec.masked (keyBytes k) d := by
  apply List.ext_getElem?
  intro i
  rw [xorMask_getElem?, Spec.masked, List.getElem?_mapIdx, keyByte_eq_getD]

theorem xorMaskFrom_xorMaskFrom (k : Key) (i : Nat) (d : List Byte) :
    xorMaskFrom k i (xorMaskFrom k i d) = d := by
  induction d generalizing i with
  | nil => rfl
  | cons b d ih => simp [xorMaskFrom, ih]

/-- Masking is an involution (41_xor_masking.md R82). -/
theorem xorMask_xorMask (k : Key) (d : List Byte) : xorMask k (xorMask k d) = d :=
  xorMaskFrom_xorMaskFrom k 0 d

theorem xorMaskFrom_append (k : Key) (i : Nat) (a b : List Byte) :
    xorMaskFrom k i (a ++ b) = xorMaskFrom k i a ++ xorMaskFrom k (i + a.length) b := by
  induction a generalizing i with
  | nil => simp [xorMaskFrom]
  | cons x a ih => simp [xorMaskFrom, ih, Nat.add_comm 1, Nat.add_assoc]

theorem xorMaskFrom_congr {k k' : Key} {i j : Nat} (d : List Byte)
    (h : ∀ n, keyByte k (i + n) = keyByte k' (j + n)) : xorMaskFrom k i d = xorMaskFrom k' j d := by
  apply List.ext_getElem?
  intro n
  rw [xorMaskFrom_getElem?, xorMaskFrom_getElem?, h]

/-! ## `hdrEnc` -/

theorem encodedByte0_eq (fin : Bool) (opcode : Nat) :
    encodedByte0 fin opcode = byte0 (Spec.encodedTag fin opcode) := by
  have h : ∀ (f : Bool) (o : BitVec 8),
      (if f then (0x80 : Byte) else 0x00) ||| (o &&& 0x0F) =
        byte0 ⟨f, false, false, false, o.setWidth 4⟩ := by decide
  have := h fin (BitVec.ofNat 8 opcode)
  simpa [encodedByte0, opcodeField, Spec.encodedTag, BitVec.setWidth_ofNat_of_le] using this

theorem maskBit_or_eq (mask : Bool) {n : Nat} (h : n < 128) :
    maskBit mask ||| BitVec.ofNat 8 n = byte1 mask (BitVec.ofNat 7 n) := by
  have key : ∀ (m : Bool) (l : BitVec 7), maskBit m ||| l.setWidth 8 = byte1 m l := by decide
  have := key mask (BitVec.ofNat 7 n)
  rwa [show (BitVec.ofNat 7 n).setWidth 8 = BitVec.ofNat 8 n by
    apply BitVec.eq_of_toNat_eq; simp; omega] at this

theorem hdrEnc_short (fin : Bool) (opcode : Nat) (mask : Bool) {n : Nat} (h : n ≤ 125) :
    hdrEnc fin opcode mask n =
      frameBytesS (Spec.encodedTag fin opcode) mask ⟨n, by omega⟩ [] := by
  simp [hdrEnc, h, frameBytesS, len7Field, encodedByte0_eq, maskBit_or_eq mask (n := n) (by omega)]

theorem hdrEnc_medium (fin : Bool) (opcode : Nat) (mask : Bool) {n : Nat} (h : 125 < n) (h' : n ≤ 65535) :
    hdrEnc fin opcode mask n =
      frameBytesM (Spec.encodedTag fin opcode) mask (BitVec.ofNat 16 n) [] := by
  have := maskBit_or_eq mask (n := 126) (by omega)
  simp only [hdrEnc, show ¬ n ≤ 125 by omega, h', if_true, if_false, frameBytesM, encodedByte0_eq,
    List.append_nil]
  rw [show (126 : BitVec 8) = BitVec.ofNat 8 126 from rfl, this]
  rfl

theorem hdrEnc_long (fin : Bool) (opcode : Nat) (mask : Bool) {n : Nat} (h : 65535 < n) :
    hdrEnc fin opcode mask n =
      frameBytesL (Spec.encodedTag fin opcode) mask (BitVec.ofNat 64 n) [] := by
  have := maskBit_or_eq mask (n := 127) (by omega)
  simp only [hdrEnc, show ¬ n ≤ 125 by omega, show ¬ n ≤ 65535 by omega, if_false, frameBytesL,
    encodedByte0_eq, List.append_nil]
  rw [show (127 : BitVec 8) = BitVec.ofNat 8 127 from rfl, this]
  rfl

/-- `|HdrEnc(...)|` (40_header_encoder.md R75). -/
theorem hdrEnc_length (fin : Bool) (opcode : Nat) (mask : Bool) (n : Nat) :
    (hdrEnc fin opcode mask n).length = shortestHeader n := by
  unfold hdrEnc shortestHeader
  split <;> [rfl; split <;> rfl]

theorem firstByte_eq (fin : Bool) (opcode : Nat) :
    Spec.firstByte fin opcode = byte0 (Spec.encodedTag fin opcode) := by
  have h : ∀ (f : Bool) (o : BitVec 4),
      BitVec.ofNat 8 ((if f then 128 else 0) + o.toNat) = byte0 ⟨f, false, false, false, o⟩ := by
    decide
  simpa [Spec.firstByte, Spec.encodedTag] using h fin (BitVec.ofNat 4 opcode)

theorem secondByte_eq (mask : Bool) {n : Nat} (h : n < 128) :
    Spec.secondByte mask n = byte1 mask (BitVec.ofNat 7 n) := by
  have key : ∀ (m : Bool) (l : BitVec 7),
      BitVec.ofNat 8 ((if m then 128 else 0) + l.toNat) = byte1 m l := by decide
  have := key mask (BitVec.ofNat 7 n)
  rwa [BitVec.toNat_ofNat, Nat.mod_eq_of_lt (by omega)] at this

theorem bigEndian_two {n : Nat} (h : n < 65536) : Spec.bigEndian 2 n = be16 (BitVec.ofNat 16 n) := by
  simp only [Spec.bigEndian, be16, List.cons.injEq, and_true]
  constructor <;> apply BitVec.eq_of_toNat_eq <;> rw [extractByte_toNat] <;>
    simp only [BitVec.toNat_ofNat] <;> omega

theorem bigEndian_eight {n : Nat} (h : n < 2 ^ 64) :
    Spec.bigEndian 8 n = be64 (BitVec.ofNat 64 n) := by
  simp only [Spec.bigEndian, be64, List.cons.injEq, and_true]
  refine ⟨?_, ?_, ?_, ?_, ?_, ?_, ?_, ?_⟩ <;> apply BitVec.eq_of_toNat_eq <;>
    rw [extractByte_toNat] <;> simp only [BitVec.toNat_ofNat] <;> omega

/-- `HdrEnc` is the header of 40_header_encoder.md R73 as the numbers say it. -/
theorem hdrEnc_eq_header (fin : Bool) (opcode : Nat) (mask : Bool) {n : Nat} (h : n < 2 ^ 64) :
    hdrEnc fin opcode mask n = Spec.header fin opcode mask n := by
  unfold Spec.header
  split
  · rename_i h1
    rw [hdrEnc_short fin opcode mask h1, secondByte_eq mask (by omega), firstByte_eq]
    rfl
  · split
    · rw [hdrEnc_medium fin opcode mask (by omega) (by omega), secondByte_eq mask (by omega),
        firstByte_eq, bigEndian_two ‹_›]
      simp [frameBytesM]
    · rw [hdrEnc_long fin opcode mask (by omega), secondByte_eq mask (by omega), firstByte_eq,
        bigEndian_eight h]
      simp [frameBytesL]

/-! ## Frame buffers -/

@[simp] theorem frameBytesS_length (t : FrameTag) (m : Bool) (l : Fin 126) (r : List Byte) :
    (frameBytesS t m l r).length = 2 + r.length := by
  simp [frameBytesS]; omega

@[simp] theorem frameBytesM_length (t : FrameTag) (m : Bool) (l : BitVec 16) (r : List Byte) :
    (frameBytesM t m l r).length = 4 + r.length := by
  simp [frameBytesM]; omega

@[simp] theorem frameBytesL_length (t : FrameTag) (m : Bool) (l : BitVec 64) (r : List Byte) :
    (frameBytesL t m l r).length = 10 + r.length := by
  simp [frameBytesL]; omega

theorem len7Field_toNat (l : Fin 126) : (len7Field l).toNat = l.val := by
  have := l.isLt
  simp only [len7Field, BitVec.toNat_ofNat]
  omega

theorem parseHeader_frameBytesS (t : FrameTag) (m : Bool) (l : Fin 126) (r : List Byte) :
    parseHeader (frameBytesS t m l r) = some (metaOf t m 2 (BitVec.ofNat 64 l.val)) := by
  have h : l.val ≤ 125 := by omega
  simp [parseHeader, frameBytesS, declaredLength, headerLengthOf, len7Field_toNat, h]

theorem parseHeader_frameBytesM (t : FrameTag) (m : Bool) (l : BitVec 16) (r : List Byte) :
    parseHeader (frameBytesM t m l r) = some (metaOf t m 4 (l.setWidth 64)) := by
  have h : memRead ([byte0 t, byte1 m 126] ++ be16 l ++ r) 2 2 = some (be16 l) := by
    rw [memRead_eq_some_iff]
    simp [be16]
  simp only [parseHeader, frameBytesM, List.cons_append, List.nil_append] at *
  simp [declaredLength, headerLengthOf, be16_length]
  refine ⟨be16 l, h, ?_⟩
  rw [fromBe_be16]
  congr 1
  apply BitVec.eq_of_toNat_eq
  simp

theorem parseHeader_frameBytesL (t : FrameTag) (m : Bool) (l : BitVec 64) (r : List Byte) :
    parseHeader (frameBytesL t m l r) = some (metaOf t m 10 l) := by
  have h : memRead ([byte0 t, byte1 m 127] ++ be64 l ++ r) 2 8 = some (be64 l) := by
    rw [memRead_eq_some_iff]
    simp [be64]
  simp only [parseHeader, frameBytesL, List.cons_append, List.nil_append] at *
  simp [declaredLength, headerLengthOf, be64_length]
  exact ⟨be64 l, h, by rw [fromBe_be64]; simp⟩

theorem decodeWire_frameBytesS (t : FrameTag) (m : Bool) (l : Fin 126) (r : List Byte) :
    decodeWire (frameBytesS t m l r) = if m then .frameSK t l r else .frameSU t l r := by
  have h := l.isLt
  simp [decodeWire, frameBytesS, len7Field_toNat, h]

theorem decodeWire_frameBytesM (t : FrameTag) (m : Bool) (l : BitVec 16) (r : List Byte) :
    decodeWire (frameBytesM t m l r) = if m then .frameMK t l r else .frameMU t l r := by
  have h := fromBe_be16 l
  simp only [be16] at h
  simp [decodeWire, frameBytesM, be16, h]

theorem decodeWire_frameBytesL (t : FrameTag) (m : Bool) (l : BitVec 64) (r : List Byte) :
    decodeWire (frameBytesL t m l r) = if m then .frameLK t l r else .frameLU t l r := by
  have h := fromBe_be64 l
  simp only [be64] at h
  simp [decodeWire, frameBytesL, be64, h]

/-- Every buffer holds a whole header of exactly one length form, or no whole header (30_encoding.md R54,
43_frame_decoder.md R103). -/
theorem frame_cases (frame : List Byte) :
    (∃ t m l r, frame = frameBytesS t m l r) ∨ (∃ t m l r, frame = frameBytesM t m l r) ∨
    (∃ t m l r, frame = frameBytesL t m l r) ∨
    (parseHeader frame = none ∧ decodeWire frame = .decode frame) := by
  match frame with
  | [] => exact .inr (.inr (.inr ⟨rfl, rfl⟩))
  | [_] => exact .inr (.inr (.inr ⟨rfl, rfl⟩))
  | b0 :: b1 :: rest =>
    have hb : (len7Of b1).toNat < 128 := (len7Of b1).isLt
    by_cases h1 : (len7Of b1).toNat < 126
    · refine .inl ⟨tagOf b0, maskOf b1, ⟨_, h1⟩, rest, ?_⟩
      simp [frameBytesS, len7Field]
    · by_cases h2 : (len7Of b1).toNat = 126
      · have e : len7Of b1 = 126 := BitVec.eq_of_toNat_eq h2
        match rest with
        | l0 :: l1 :: r =>
          refine .inr (.inl ⟨tagOf b0, maskOf b1, BitVec.ofNat 16 (fromBe [l0, l1]), r, ?_⟩)
          rw [frameBytesM, be16_fromBe, ← e]
          simp
        | [] | [_] =>
          refine .inr (.inr (.inr ⟨?_, ?_⟩)) <;> simp [parseHeader, decodeWire, headerLengthOf, h2]
      · have h3 : (len7Of b1).toNat = 127 := by omega
        have e : len7Of b1 = 127 := BitVec.eq_of_toNat_eq h3
        match rest with
        | l0 :: l1 :: l2 :: l3 :: l4 :: l5 :: l6 :: l7 :: r =>
          refine .inr (.inr (.inl ⟨tagOf b0, maskOf b1,
            BitVec.ofNat 64 (fromBe [l0, l1, l2, l3, l4, l5, l6, l7]), r, ?_⟩))
          rw [frameBytesL, be64_fromBe, ← e]
          simp
        | [] | [_] | [_, _] | [_, _, _] | [_, _, _, _] | [_, _, _, _, _] | [_, _, _, _, _, _]
        | [_, _, _, _, _, _, _] =>
          refine .inr (.inr (.inr ⟨?_, ?_⟩)) <;> simp [parseHeader, decodeWire, headerLengthOf, h3]

/-! ## `readPayload` -/

/-- What steps 5 and 6 return when the header is `headerLength` bytes: never a read outside the buffer
(43_frame_decoder.md R105, R107). -/
theorem readPayload_plain {m : Meta} {h rest : List Byte} (hm : m.hasMask = false)
    (ho : m.payloadOffset = h.length) :
    readPayload m (h ++ rest) = some (rest.take m.length.toNat) := by
  have hp : presentBytes m (h ++ rest).length = min m.length.toNat rest.length := by
    simp [presentBytes, availableBytes, ho]
  simp only [readPayload, hp, hm]
  split
  · rename_i h0
    have : rest.take m.length.toNat = [] := by
      rw [List.take_eq_nil_iff]
      rcases Nat.min_eq_zero_iff.1 h0 with h | h
      · exact .inl h
      · exact .inr (List.length_eq_zero_iff.1 h)
    simp [this]
  · have hr : memRead (h ++ rest) m.payloadOffset (min m.length.toNat rest.length) =
        some (rest.take m.length.toNat) := by
      rw [memRead_eq_some_iff, ho]
      constructor
      · simp
      · simp [List.take_eq_take_min]
    simp [hr]

theorem readPayload_masked {m : Meta} {h rest : List Byte} (hm : m.hasMask = true)
    (hh : m.headerLength = h.length) (ho : m.payloadOffset = h.length + 4) :
    readPayload m (h ++ rest) =
      some (Spec.masked (rest.take 4) ((rest.drop 4).take m.length.toNat)) := by
  have hp : presentBytes m (h ++ rest).length = min m.length.toNat (rest.length - 4) := by
    simp only [presentBytes, availableBytes, ho, List.length_append]
    congr 1
    split <;> omega
  simp only [readPayload, hp, hm]
  split
  · rename_i h0
    have : (rest.drop 4).take m.length.toNat = [] := by
      rw [List.take_eq_nil_iff]
      rcases Nat.min_eq_zero_iff.1 h0 with h | h
      · exact .inl h
      · exact .inr (List.length_eq_zero_iff.1 (by simpa using h))
    simp [this, Spec.masked]
  · rename_i h0
    have hr : memRead (h ++ rest) m.payloadOffset (min m.length.toNat (rest.length - 4)) =
        some ((rest.drop 4).take m.length.toNat) := by
      rw [memRead_eq_some_iff, ho]
      constructor
      · simp; omega
      · rw [← List.drop_drop, List.drop_left]
        simp [List.take_eq_take_min]
    have hl : 4 < rest.length := by omega
    have hk : memRead (h ++ rest) m.headerLength 4 = some (rest.take 4) := by
      rw [memRead_eq_some_iff, hh]
      constructor
      · simp; omega
      · simp
    obtain ⟨k, -, hk2⟩ := keyOfBytes_of_length (s := rest.take 4) (by simp; omega)
    simp [hr, hk, ← hk2, xorMask_eq_masked]

end Sys2Proof.Machine
end

