-- ==== Sys2Proof/Laws/Exec.lean ====
section
/-! SUPPORT. Everything an instruction can do, said once: an admitted one ends with its response and its
unit `IDLE`, one that is not admitted is refused. Frames, invariants and commutation cite this and do not
unfold the meanings. -/

namespace Sys2Proof.Machine

theorem admitsLength_iff {s : State} {n : Nat} : admitsLength s n = true ↔ Spec.FitsLength s n := by
  simp [admitsLength, Spec.FitsLength]

theorem admitsFrame_iff {s : State} {n : Nat} : admitsFrame s n = true ↔ Spec.FitsFrame s n := by
  unfold admitsFrame Spec.FitsFrame
  split <;> simp_all

/-- `DECODE` on a header of `h.length` bytes and `rest` (43_frame_decoder.md R105, R108, R109). -/
theorem decodeParsed_eq (s : State) (t : FrameTag) (hasMask : Bool) (len : BitVec 64)
    (h rest : List Byte) :
    decodeParsed (metaOf t hasMask h.length len) (h ++ rest) s =
      .next (finish (.decode (Spec.decoded s.cfg.truncPolicy t hasMask h.length len.toNat rest)) s) := by
  have hr : Spec.record t hasMask h.length len.toNat = metaOf t hasMask h.length len := by
    cases hasMask <;> simp [Spec.record, metaOf, payloadOffsetOf]
  have ht : truncatedFlag (metaOf t hasMask h.length len) (h ++ rest).length =
      decide (rest.length < (if hasMask then 4 + len.toNat else len.toNat)) := by
    cases hasMask
    · simp [truncatedFlag, metaOf, payloadOffsetOf]
    · simp [truncatedFlag, metaOf, payloadOffsetOf]
      omega
  have hp : readPayload (metaOf t hasMask h.length len) (h ++ rest) =
      some (if hasMask then Spec.masked (rest.take 4) ((rest.drop 4).take len.toNat)
        else rest.take len.toNat) := by
    cases hasMask
    · exact readPayload_plain rfl rfl
    · exact readPayload_masked rfl rfl rfl
  simp only [decodeParsed, ht, hp, Spec.decoded, hr, emit_eq_append, List.nil_append]
  split <;> split <;> rfl

theorem decodeForm_eq {s : State} {t : FrameTag} {hasMask : Bool} {len : BitVec 64} {h rest : List Byte}
    (ha : Spec.FitsFrame s (h.length + rest.length)) :
    decodeForm (metaOf t hasMask h.length len) (h ++ rest) s =
      .next (finish (.decode (Spec.decoded s.cfg.truncPolicy t hasMask h.length len.toNat rest)) s) := by
  rw [decodeForm, if_pos (admitsFrame_iff.2 (by simpa using ha)), decodeParsed_eq]

/-- A frame form of 2, 4 or 10 header bytes, as `decodeForm_eq` wants it. -/
theorem decodeForm_S {s : State} {t : FrameTag} {hasMask : Bool} {l : Fin 126} {rest : List Byte}
    (ha : Spec.FitsFrame s (2 + rest.length)) :
    decodeForm (metaOf t hasMask 2 (BitVec.ofNat 64 l.val)) (frameBytesS t hasMask l rest) s =
      .next (finish (.decode (Spec.decoded s.cfg.truncPolicy t hasMask 2 l.val rest)) s) := by
  have h := decodeForm_eq (s := s) (t := t) (hasMask := hasMask) (len := BitVec.ofNat 64 l.val)
    (h := [byte0 t, byte1 hasMask (len7Field l)]) ha
  have hl : (BitVec.ofNat 64 l.val).toNat = l.val := by
    have := l.isLt
    rw [BitVec.toNat_ofNat, Nat.mod_eq_of_lt (by omega)]
  rwa [hl] at h

theorem decodeForm_M {s : State} {t : FrameTag} {hasMask : Bool} {l : BitVec 16} {rest : List Byte}
    (ha : Spec.FitsFrame s (4 + rest.length)) :
    decodeForm (metaOf t hasMask 4 (l.setWidth 64)) (frameBytesM t hasMask l rest) s =
      .next (finish (.decode (Spec.decoded s.cfg.truncPolicy t hasMask 4 l.toNat rest)) s) := by
  have h := decodeForm_eq (s := s) (t := t) (hasMask := hasMask) (len := l.setWidth 64)
    (h := [byte0 t, byte1 hasMask 126] ++ be16 l) ha
  have hl : (l.setWidth 64).toNat = l.toNat := by
    have := l.isLt
    rw [BitVec.toNat_setWidth, Nat.mod_eq_of_lt (by omega)]
  rwa [hl] at h

theorem decodeForm_L {s : State} {t : FrameTag} {hasMask : Bool} {l : BitVec 64} {rest : List Byte}
    (ha : Spec.FitsFrame s (10 + rest.length)) :
    decodeForm (metaOf t hasMask 10 l) (frameBytesL t hasMask l rest) s =
      .next (finish (.decode (Spec.decoded s.cfg.truncPolicy t hasMask 10 l.toNat rest)) s) :=
  decodeForm_eq (h := [byte0 t, byte1 hasMask 127] ++ be64 l) ha

/-- `DECODE` of a buffer is its frame form (30_encoding.md R56, 43_frame_decoder.md R105). -/
theorem execDecode_eq {s : State} {frame : List Byte} (ha : Spec.FitsFrame s frame.length) :
    execDecode frame s = .next (finish (.decode (Spec.decodeAnswer s.cfg.truncPolicy frame)) s) := by
  have hd : ∀ m, parseHeader frame = some m → execDecode frame s = decodeForm m frame s := by
    intro m hm
    rw [execDecode, if_pos (admitsFrame_iff.2 ha), decodeForm, if_pos (admitsFrame_iff.2 ha), hm]
  rcases frame_cases frame with ⟨t, m, l, r, rfl⟩ | ⟨t, m, l, r, rfl⟩ | ⟨t, m, l, r, rfl⟩ | ⟨hp, hw⟩
  · rw [hd _ (parseHeader_frameBytesS t m l r), decodeForm_S (by simpa using ha), Spec.decodeAnswer,
      decodeWire_frameBytesS]
    cases m <;> rfl
  · rw [hd _ (parseHeader_frameBytesM t m l r), decodeForm_M (by simpa using ha), Spec.decodeAnswer,
      decodeWire_frameBytesM]
    cases m <;> rfl
  · rw [hd _ (parseHeader_frameBytesL t m l r), decodeForm_L (by simpa using ha), Spec.decodeAnswer,
      decodeWire_frameBytesL]
    cases m <;> rfl
  · rw [execDecode, if_pos (admitsFrame_iff.2 ha), hp, Spec.decodeAnswer, hw]
    rfl

theorem lmax_lt {s : State} {n : Nat} (h : Spec.FitsLength s n) : n < 2 ^ 64 :=
  lt_of_le_of_lt h s.cfg.lmax.isLt

/-- `ENCODE` of an admitted payload (42_frame_encoder.md R90, R93). -/
theorem encodeAdmitted_eq {s : State} {payload : List Byte} (opcode : Nat) (fin mask : Bool)
    (h : Spec.FitsLength s payload.length) :
    encodeAdmitted payload opcode fin mask s =
      finish (.encode (Spec.encodeAnswer (nextAnswer s) payload opcode fin mask))
        (if mask then afterRequest s else s) := by
  have hh := fun m => hdrEnc_eq_header fin opcode m (lmax_lt h)
  cases mask
  · simp [encodeAdmitted, plainFrame, Spec.encodeAnswer, hh]
  · cases ha : nextAnswer s <;>
      simp [encodeAdmitted, maskedFrame, Spec.encodeAnswer, hh, rngRequest, keyDelivered, ha,
        xorMask_eq_masked]

/-- The one lemma about admitted instructions: each ends with the response the rules give, and only a
masked `ENCODE` touches the random source. -/
theorem exec_admitted {i : Instr} {s : State} (h : Spec.Admitted s i) :
    exec i s = .next (finish (Spec.response s.cfg (nextAnswer s) i)
      (if Spec.drawsKey i then afterRequest s else s)) := by
  cases i with
  | frameMU t l r => exact decodeForm_M h
  | frameMK t l r => exact decodeForm_M h
  | frameLU t l r => exact decodeForm_L h
  | frameLK t l r => exact decodeForm_L h
  | frameSU t l r => exact decodeForm_S h
  | frameSK t l r => exact decodeForm_S h
  | encode payload opcode fin mask =>
    simp only [exec, execEncode, if_pos (admitsLength_iff.2 h), encodeAdmitted_eq opcode fin mask h,
      Spec.response, Spec.drawsKey]
    rfl
  | decode frame => exact execDecode_eq h
  | hdrenc fin opcode mask length =>
    simp only [exec, execHdrenc, if_pos (admitsLength_iff.2 h), Spec.response, Spec.drawsKey,
      hdrEnc_eq_header fin opcode mask (lmax_lt h), emit_eq_append, List.nil_append]
    rfl
  | xormask key data =>
    obtain ⟨k, hk, rfl⟩ := keyOfBytes_of_length h.1
    simp only [exec, execXormask, hk, if_pos (admitsLength_iff.2 h.2), Spec.response, Spec.drawsKey,
      xorMask_eq_masked, emit_eq_append, List.nil_append]
    rfl

/-- The refusal of a request that is not admitted (60_exceptions.md R118). -/
theorem exec_not_admitted {i : Instr} {s : State} (h : ¬ Spec.Admitted s i) :
    ∃ r, exec i s = .refused r := by
  have hf : ∀ m frame, ¬ Spec.FitsFrame s frame.length →
      decodeForm m frame s = .refused .frameAboveFmax := by
    intro m frame hn
    rw [decodeForm, if_neg (fun hc => hn (admitsFrame_iff.1 hc))]
  have hl : ∀ n, ¬ Spec.FitsLength s n → ¬ admitsLength s n = true :=
    fun n hn hc => hn (admitsLength_iff.1 hc)
  cases i with
  | frameMU t l r => exact ⟨_, hf _ _ (by simpa [Spec.Admitted] using h)⟩
  | frameMK t l r => exact ⟨_, hf _ _ (by simpa [Spec.Admitted] using h)⟩
  | frameLU t l r => exact ⟨_, hf _ _ (by simpa [Spec.Admitted] using h)⟩
  | frameLK t l r => exact ⟨_, hf _ _ (by simpa [Spec.Admitted] using h)⟩
  | frameSU t l r => exact ⟨_, hf _ _ (by simpa [Spec.Admitted] using h)⟩
  | frameSK t l r => exact ⟨_, hf _ _ (by simpa [Spec.Admitted] using h)⟩
  | encode payload opcode fin mask => exact ⟨_, if_neg (hl _ h)⟩
  | decode frame =>
    exact ⟨.frameAboveFmax, if_neg (fun hc => h (admitsFrame_iff.1 hc))⟩
  | hdrenc fin opcode mask length => exact ⟨_, if_neg (hl _ h)⟩
  | xormask key data =>
    by_cases hk : key.length = 4
    · obtain ⟨k, hk', rfl⟩ := keyOfBytes_of_length hk
      refine ⟨.dataAboveLmax, ?_⟩
      simp only [exec, execXormask, hk']
      exact if_neg (hl _ fun hc => h ⟨hk, hc⟩)
    · exact ⟨.keyNotFourBytes, by simp only [exec, execXormask, keyOfBytes_eq_none hk]⟩

/-- Everything `exec` can do, said once. -/
theorem exec_cases (i : Instr) (s : State) :
    (Spec.Admitted s i ∧ exec i s = .next (finish (Spec.response s.cfg (nextAnswer s) i)
        (if Spec.drawsKey i then afterRequest s else s))) ∨
    (¬ Spec.Admitted s i ∧ ∃ r, exec i s = .refused r) := by
  by_cases h : Spec.Admitted s i
  · exact .inl ⟨h, exec_admitted h⟩
  · exact .inr ⟨h, exec_not_admitted h⟩

/-- What a next state of `exec` is. -/
theorem exec_next {i : Instr} {s s' : State} (h : exec i s = .next s') :
    Spec.Admitted s i ∧ s' = finish (Spec.response s.cfg (nextAnswer s) i)
        (if Spec.drawsKey i then afterRequest s else s) := by
  rcases exec_cases i s with ⟨ha, he⟩ | ⟨_, r, he⟩
  · rw [he] at h
    exact ⟨ha, by injection h with h; exact h.symm⟩
  · rw [he] at h
    cases h

/-- A response comes from the unit that performs the instruction. -/
@[simp] theorem responder_response (c : Config) (a : RngAnswer) (i : Instr) :
    responder (Spec.response c a i) = i.unit := by
  cases i <;> rfl

end Sys2Proof.Machine
end

