-- ==== Sys2Proof/Laws/PerInstr.lean ====
section
/-! SUPPORT. The per-instruction family `Addressed`: the request that encodes an instruction goes to the
unit that performs it (30_encoding.md R68). -/

namespace Sys2Proof.Laws.Addressed

/-- The encoded request of `i` is addressed to `i`'s unit. -/
def Statement (i : Instr) : Prop :=
  requestUnit (Sys2Proof.encode i) = i.unit

theorem frameMU (tag : FrameTag) (len16 : BitVec 16) (rest : List Byte) :
    Statement (.frameMU tag len16 rest) := rfl

theorem frameMK (tag : FrameTag) (len16 : BitVec 16) (rest : List Byte) :
    Statement (.frameMK tag len16 rest) := rfl

theorem frameLU (tag : FrameTag) (len64 : BitVec 64) (rest : List Byte) :
    Statement (.frameLU tag len64 rest) := rfl

theorem frameLK (tag : FrameTag) (len64 : BitVec 64) (rest : List Byte) :
    Statement (.frameLK tag len64 rest) := rfl

theorem frameSU (tag : FrameTag) (len7 : Fin 126) (rest : List Byte) :
    Statement (.frameSU tag len7 rest) := rfl

theorem frameSK (tag : FrameTag) (len7 : Fin 126) (rest : List Byte) :
    Statement (.frameSK tag len7 rest) := rfl

theorem encode (payload : List Byte) (opcode : Nat) (fin mask : Bool) :
    Statement (.encode payload opcode fin mask) := rfl

theorem decode (frame : List Byte) : Statement (.decode frame) := rfl

theorem hdrenc (fin : Bool) (opcode : Nat) (mask : Bool) (length : Nat) :
    Statement (.hdrenc fin opcode mask length) := rfl

theorem xormask (key data : List Byte) : Statement (.xormask key data) := rfl

end Sys2Proof.Laws.Addressed
end

