-- ==== Sys2Proof/Tests/Slice0.lean ====
section
/-! SUPPORT. Tests. Expected results come from the encoding tables of 30_encoding.md, written out bit by bit,
and from the vectors of 95_test_vectors.md (named at each test). The last part shows, for every statement
with hypotheses, a concrete state and operands that meet all of them. -/

namespace Sys2Proof.Tests

open Machine

/-- A machine after reset, configured, with a source that has put these answers up. -/
def machine (policy : TruncPolicy) (lmax : Fin (2 ^ 64)) (fmax : Option Nat)
    (answers : List RngAnswer) : State :=
  { State.reset with cfg := ⟨8, lmax, fmax, policy⟩, rngAnswers := answers }

/-- The defaults, and the key of vector E3. -/
def plain : State := machine .clip 18446744073709551615 none [.ok ⟨0x37, 0xFA, 0x21, 0x3D⟩]

/-- Option (a) of the truncation policies. -/
def strict : State := machine .fail 18446744073709551615 none []

/-- Payloads of at most 4 bytes, buffers of at most 6. -/
def small : State := machine .clip 4 (some 6) []

/-- A source that cannot deliver. -/
def keyless : State := machine .clip 18446744073709551615 none [.unavailable]

/-- A machine to which a request has been presented. -/
def asked (s : State) (r : Request) : State := { s with requests := [r] }

/-- The state an outcome goes on in. -/
def after : Host.Outcome State Fault Refusal → Option State
  | .next t => some t
  | _ => none

/-- Why an outcome is refused. -/
def refusal : Host.Outcome State Fault Refusal → Option Refusal
  | .refused r => some r
  | _ => none

def hello : List Byte := [0x48, 0x65, 0x6C, 0x6C, 0x6F]

def helloFrame : List Byte := [0x81, 0x85, 0x37, 0xFA, 0x21, 0x3D, 0x7F, 0x9F, 0x4D, 0x51, 0x58]

/-! ## Well-formedness: an ill-formed term for each check -/

theorem test_wf_refuses_a_wide_opcode_of_encode :
    ¬ (Instr.encode [] 16 true false).wf 4 ∧ (Instr.encode [] 15 true false).wf 4 := by decide

theorem test_wf_refuses_a_wide_opcode_of_hdrenc :
    ¬ (Instr.hdrenc true 256 false 0).wf 8 ∧ (Instr.hdrenc true 255 false 0).wf 8 := by decide

theorem test_wf_refuses_a_key_of_three_or_five_bytes :
    ¬ (Instr.xormask [1, 2, 3] []).wf 8 ∧ ¬ (Instr.xormask [1, 2, 3, 4, 5] []).wf 8 := by decide

/-! ## Decoding: words written out from 30_encoding.md R53, R55, R68 -/

/-- FIN 1, RSV 000, OPCODE 0001; MASK 0, LEN7 0000010. -/
theorem test_decode_frameSU :
    decode 8 (.wire [0b10000001, 0b00000010, 0x48, 0x69]) =
      .ok (.frameSU ⟨true, false, false, false, 1⟩ 2 [0x48, 0x69]) := by decide

/-- FIN 1, RSV 111, OPCODE 1001; MASK 1, LEN7 1111101 = 125. -/
theorem test_decode_frameSK :
    decode 8 (.wire [0b11111001, 0b11111101, 0xAA]) =
      .ok (.frameSK ⟨true, true, true, true, 9⟩ 125 [0xAA]) := by decide

/-- FIN 0, RSV 100, OPCODE 0010; MASK 0, LEN7 1111110; LEN16 0x012C = 300. -/
theorem test_decode_frameMU :
    decode 8 (.wire [0b01000010, 0b01111110, 0x01, 0x2C, 0x55]) =
      .ok (.frameMU ⟨false, true, false, false, 2⟩ 300 [0x55]) := by decide

/-- FIN 1, RSV 010, OPCODE 0000; MASK 1, LEN7 1111110; LEN16 0x0003. -/
theorem test_decode_frameMK :
    decode 8 (.wire [0b10100000, 0b11111110, 0x00, 0x03]) =
      .ok (.frameMK ⟨true, false, true, false, 0⟩ 3 []) := by decide

/-- FIN 1, RSV 001, OPCODE 1111; MASK 0, LEN7 1111111; LEN64 0x0102030405060708. -/
theorem test_decode_frameLU :
    decode 8 (.wire [0b10011111, 0b01111111, 1, 2, 3, 4, 5, 6, 7, 8, 0x41]) =
      .ok (.frameLU ⟨true, false, false, true, 15⟩ 0x0102030405060708 [0x41]) := by decide

/-- FIN 0, RSV 000, OPCODE 1000; MASK 1, LEN7 1111111; LEN64 with bit 63 set. -/
theorem test_decode_frameLK :
    decode 8 (.wire [0b00001000, 0b11111111, 0x80, 0, 0, 0, 0, 0, 0, 1, 9]) =
      .ok (.frameLK ⟨false, false, false, false, 8⟩ 0x8000000000000001 [9]) := by decide

/-- UNIT 0 with every option written, and with all three left to their defaults. -/
theorem test_decode_encode :
    decode 8 (.call 0b00 { payload := some [7], opcode := some 9, fin := some false, mask := some true }) =
        .ok (.encode [7] 9 false true) ∧
      decode 8 (.call 0b00 { payload := some [7] }) = .ok (.encode [7] 1 true false) := by decide

theorem test_decode_decode :
    decode 8 (.call 0b01 { frame := some [0x81] }) = .ok (.decode [0x81]) := by decide

theorem test_decode_hdrenc :
    decode 8 (.call 0b10
        { fin := some true, opcode := some 2, mask := some false, length := some 70000 }) =
      .ok (.hdrenc true 2 false 70000) := by decide

theorem test_decode_xormask :
    decode 8 (.call 0b11 { key := some [1, 2, 3, 4], data := some [5] }) =
      .ok (.xormask [1, 2, 3, 4] [5]) := by decide

/-- Records that are no request of their unit are refused by name. -/
theorem test_decode_refuses_by_name :
    decode 8 (.call 0 {}) = .error .missingOperand ∧
    decode 8 (.call 1 { frame := some [], key := some [] }) = .error .foreignOperand ∧
    decode 8 (.call 2 { fin := some true, opcode := some 256, mask := some true, length := some 1 }) =
      .error .opcodeWiderThanOpw ∧
    decode 8 (.call 3 { key := some [1, 2, 3], data := some [] }) = .error .keyNotFourBytes := by decide

/-- Buffers whose header is not whole are left to `DECODE` (43_frame_decoder.md R103). -/
theorem test_decode_incomplete_headers :
    decode 8 (.wire []) = .ok (.decode []) ∧ decode 8 (.wire [0x81]) = .ok (.decode [0x81]) ∧
    decode 8 (.wire [0x81, 0x7E, 0x00]) = .ok (.decode [0x81, 0x7E, 0x00]) ∧
    decode 8 (.wire [0x81, 0xFF, 0, 0, 0, 0, 0, 0, 0]) =
      .ok (.decode [0x81, 0xFF, 0, 0, 0, 0, 0, 0, 0]) := by decide

/-! ## One step: at most two tests per instruction -/

/-- Vectors H5, H18: big-endian `LEN16`; an opcode of 0x1F does not set RSV3. -/
theorem test_hdrenc_medium_and_wide_opcode :
    (after (exec (.hdrenc true 1 false 256) plain)).map (·.vlheOut) =
        some [.ok [0x81, 0x7E, 0x01, 0x00]] ∧
      (after (exec (.hdrenc true 0x1F false 0) plain)).map (·.vlheOut) = some [.ok [0x8F, 0x00]] := by
  decide

/-- Vectors H10, H13: masked long form; the largest length. -/
theorem test_hdrenc_long :
    (after (exec (.hdrenc true 1 true 100000) plain)).map (·.vlheOut) =
        some [.ok [0x81, 0xFF, 0, 0, 0, 0, 0, 0x01, 0x86, 0xA0]] ∧
      (after (exec (.hdrenc true 2 false 18446744073709551615) plain)).map (·.vlheOut) =
        some [.ok [0x82, 0x7F, 0xFF, 0xFF, 0xFF, 0xFF, 0xFF, 0xFF, 0xFF, 0xFF]] := by
  decide

/-- Vector X1: the fifth byte takes `key[0]` again. -/
theorem test_xormask :
    (after (exec (.xormask [0x37, 0xFA, 0x21, 0x3D] hello) plain)).map (·.xmeOut) =
      some [.ok [0x7F, 0x9F, 0x4D, 0x51, 0x58]] := by decide

/-- Vectors E1, E3. -/
theorem test_encode :
    (after (exec (.encode [0x48, 0x69] 1 true false) plain)).map (·.fencOut) =
        some [.ok [0x81, 0x02, 0x48, 0x69]] ∧
      (after (exec (.encode hello 1 true true) plain)).map (·.fencOut) = some [.ok helloFrame] := by
  decide

/-- Vectors E15, E16, E18: no key means no frame, for an empty payload too; unmasked asks for none. -/
theorem test_encode_without_a_key :
    (after (exec (.encode [] 1 true true) keyless)).map (·.fencOut) = some [.randomnessUnavailable] ∧
      (after (exec (.encode [0x48, 0x69] 1 true false) keyless)).map (·.rngAnswers) =
        some [.unavailable] := by decide

/-- Worked example S3, and P5 step 2: the key comes from the frame. -/
theorem test_decode_whole_and_cut :
    (after (exec (.decode [0x81, 0x02, 0x48, 0x69]) plain)).map (·.fdecOut) =
        some [.ok false [0x48, 0x69] ⟨true, false, false, false, 1, false, 2, 2, 2⟩] ∧
      (after (exec (.decode (helloFrame.take 8)) plain)).map (·.fdecOut) =
        some [.ok true [0x48, 0x65] ⟨true, false, false, false, 1, true, 5, 6, 2⟩] := by decide

/-- Vector T11 under both policies: the sum `10 + 2^64 - 1` does not wrap. -/
theorem test_decode_does_not_wrap :
    (after (exec (.decode
        [0x81, 0x7F, 0xFF, 0xFF, 0xFF, 0xFF, 0xFF, 0xFF, 0xFF, 0xFF, 0x41]) plain)).map (·.fdecOut) =
      some [.ok true [0x41]
        ⟨true, false, false, false, 1, false, 18446744073709551615, 10, 10⟩] ∧
    (after (exec (.decode
        [0x81, 0x7F, 0xFF, 0xFF, 0xFF, 0xFF, 0xFF, 0xFF, 0xFF, 0xFF, 0x41]) strict)).map (·.fdecOut) =
      some [.truncatedFrame] := by decide

/-- 43_frame_decoder.md R111: `81 05 48 65`, cut short. -/
theorem test_frameSU :
    (after (exec (.frameSU ⟨true, false, false, false, 1⟩ 5 [0x48, 0x65]) plain)).map (·.fdecOut) =
      some [.ok true [0x48, 0x65] ⟨true, false, false, false, 1, false, 5, 2, 2⟩] := by decide

/-- 43_frame_decoder.md R111: `f9 83 aa bb cc dd cb d9 af`; and `88 80 01 02`, the key cut short. -/
theorem test_frameSK :
    (after (exec (.frameSK ⟨true, true, true, true, 9⟩ 3
        [0xAA, 0xBB, 0xCC, 0xDD, 0xCB, 0xD9, 0xAF]) plain)).map (·.fdecOut) =
      some [.ok false [0x61, 0x62, 0x63] ⟨true, true, true, true, 9, true, 3, 6, 2⟩] ∧
    (after (exec (.frameSK ⟨true, false, false, false, 8⟩ 0 [1, 2]) plain)).map (·.fdecOut) =
      some [.ok true [] ⟨true, false, false, false, 8, true, 0, 6, 2⟩] := by decide

/-- 43_frame_decoder.md R104: `81 7e 00 03 41 42 43`, a length in a longer form than it needs. -/
theorem test_frameMU :
    (after (exec (.frameMU ⟨true, false, false, false, 1⟩ 3 [0x41, 0x42, 0x43]) plain)).map (·.fdecOut) =
      some [.ok false [0x41, 0x42, 0x43] ⟨true, false, false, false, 1, false, 3, 4, 4⟩] := by decide

/-- 43_frame_decoder.md R105: `payloadOffset` 8, and the first payload byte takes `key[0]`. -/
theorem test_frameMK :
    (after (exec (.frameMK ⟨true, false, false, false, 1⟩ 126 [1, 2, 3, 4, 0x40, 0x43]) plain)).map
        (·.fdecOut) =
      some [.ok true [0x41, 0x41] ⟨true, false, false, false, 1, true, 126, 8, 4⟩] := by decide

/-- 43_frame_decoder.md R111: `82 7f 00 00 00 00 00 00 00 01 5a`. -/
theorem test_frameLU :
    (after (exec (.frameLU ⟨true, false, false, false, 2⟩ 1 [0x5A]) plain)).map (·.fdecOut) =
      some [.ok false [0x5A] ⟨true, false, false, false, 2, false, 1, 10, 10⟩] := by decide

/-- The frame of vector E14 cut after two payload bytes: `payloadOffset` 14. -/
theorem test_frameLK :
    (after (exec (.frameLK ⟨true, false, false, false, 2⟩ 65536 [15, 15, 15, 15, 0xA5, 0xA5]) plain)).map
        (·.fdecOut) =
      some [.ok true [0xAA, 0xAA] ⟨true, false, false, false, 2, true, 65536, 14, 10⟩] := by decide

/-- Refusal vectors, each beside the nearest accepted request. -/
theorem test_refusals :
    refusal (exec (.hdrenc true 1 false 18446744073709551616) plain) = some .lengthAboveLmax ∧
    refusal (exec (.xormask [1, 2, 3] []) plain) = some .keyNotFourBytes ∧
    refusal (exec (.encode hello 1 true false) small) = some .payloadAboveLmax ∧
    refusal (exec (.xormask [1, 2, 3, 4] hello) small) = some .dataAboveLmax ∧
    refusal (exec (.decode (helloFrame.take 7)) small) = some .frameAboveFmax ∧
    (after (exec (.encode (hello.take 4) 1 true false) small)).isSome = true ∧
    (after (exec (.decode (helloFrame.take 6)) small)).isSome = true := by decide

/-- A request becomes a response in one step, and the unit is `IDLE` again (10_state.md R15). -/
theorem test_step :
    (after (step (asked plain (.wire [0x8A, 0x00])))).map (fun t => (t.fdecOut, t.requests, t.fdecPhase)) =
      some ([.ok false [] ⟨true, false, false, false, 10, false, 0, 2, 2⟩], [], .idle) := by decide

/-- Big-endian fields and a write into the middle of an output (20_memory.md R37, R38). -/
theorem test_bytes :
    be16 0x0102 = [1, 2] ∧ fromBe [1, 2] = 258 ∧ be64 0x0102030405060708 = [1, 2, 3, 4, 5, 6, 7, 8] ∧
    memWrite [1, 2, 3, 4] 1 [8, 9] = [1, 8, 9, 4] ∧ memRead [1, 2, 3] 1 2 = some [2, 3] ∧
    memRead [1, 2, 3] 2 2 = none := by decide

/-! ## Witnesses: what the statements assume can be met -/

theorem fits_unbounded {s : State} (h : s.cfg.fmax = none) (n : Nat) : Spec.FitsFrame s n := by
  intro fmax hf
  rw [h] at hf
  cases hf

theorem fits_bounded {s : State} {fmax n : Nat} (h : s.cfg.fmax = some fmax) (hn : n ≤ fmax) :
    Spec.FitsFrame s n := by
  intro f hf
  rw [h] at hf
  cases hf
  exact hn

theorem fits_small_six : Spec.FitsFrame small 6 := fits_bounded rfl (by decide)

theorem not_fits_small_seven : ¬ Spec.FitsFrame small 7 := fun h => absurd (h 6 rfl) (by decide)

theorem witness_DecodeOfEncodeIsTheInstruction :
    (Instr.encode hello 255 false true).wf 8 ∧ (Instr.hdrenc true 15 true 126).wf 4 ∧
    (Instr.xormask [1, 2, 3, 4] []).wf 4 ∧ (Instr.decode helloFrame).wf 4 ∧
    (Instr.frameSU ⟨true, true, true, true, 15⟩ 125 []).wf 4 ∧
    (Instr.frameLK ⟨false, false, false, false, 0⟩ 18446744073709551615 []).wf 4 := by decide

theorem witness_WholeHeaderBufferIsItsOwnEncoding :
    parseHeader [0x81, 0x7D] ≠ none ∧ parseHeader [0x81, 0x7E, 0xFF, 0xFF] ≠ none ∧
    parseHeader [0x81, 0xFF, 0, 0, 0, 0, 0, 0, 0, 0] ≠ none ∧
    parseHeader [0x81] = none ∧ parseHeader [0x81, 0x7E, 0xFF] = none ∧
    parseHeader [0x81, 0xFF, 0, 0, 0, 0, 0, 0, 0] = none := by decide

theorem witness_FormRowsPartitionTheFirstTwoBytes :
    (⟨"FRAME.S.K", 0x0080, 0x0080, 2, 6⟩ ∈ formRows ∧ 0x81FD#16 &&& 0x0080 = 0x0080 ∧
      (0x81FD#16 &&& 0x007F).toNat ≤ 125) ∧
    (⟨"FRAME.M.U", 0x007E, 0x00FF, 4, 4⟩ ∈ formRows ∧ 0x817E#16 &&& 0x00FF = 0x007E) ∧
    parseHeader [0x81, 0xFD] = some ⟨true, false, false, false, 1, true, 125, 6, 2⟩ ∧
    parseHeader [0x81, 0x7E, 0, 0] = some ⟨true, false, false, false, 1, false, 0, 4, 4⟩ := by decide

theorem witness_DecodedRequestsAreWellFormed :
    decode 4 (.call 3 { key := some [1, 2, 3, 4], data := some hello }) =
      .ok (.xormask [1, 2, 3, 4] hello) := by decide

theorem witness_ShortenedCallsExpandByTheDefaults :
    4 ≤ 4 ∧ 15 < 2 ^ 4 ∧ (1 : BitVec 2) ≠ 0 ∧
    decode 4 (.call 1 { frame := some helloFrame }) = .ok (.decode helloFrame) := by decide

theorem witness_UnitNumberSelectsTheOperation :
    decode 8 (.call 2 { fin := some true, opcode := some 1, mask := some true, length := some 125 }) =
      .ok (.hdrenc true 1 true 125) := by decide

/-- A request on every unit, ready, and on FDEC off the wire. -/
theorem witness_StepRunsTheDecodedInstruction :
    (asked plain (.wire helloFrame)).resetLine = false ∧
    (asked plain (.wire helloFrame)).requests = [.wire helloFrame] ∧
    decode (asked plain (.wire helloFrame)).cfg.opw (.wire helloFrame) =
      .ok (.frameSK ⟨true, false, false, false, 1⟩ 5 (helloFrame.drop 2)) ∧
    phaseOf (asked plain (.wire helloFrame)) .fdec = .idle := by decide

/-- The state in which FDEC waits. -/
def fdecBusy : State := setPhase (asked plain (.call 1 { frame := some helloFrame })) .fdec .busy

theorem witness_RequestToABusyUnitWaits :
    fdecBusy.resetLine = false ∧ fdecBusy.requests = [.call 1 { frame := some helloFrame }] ∧
    decode fdecBusy.cfg.opw (.call 1 { frame := some helloFrame }) = .ok (.decode helloFrame) ∧
    phaseOf fdecBusy (Instr.decode helloFrame).unit = .busy := by decide

theorem witness_StepWithoutARequestChangesNothing :
    plain.resetLine = false ∧ plain.requests = [] := by decide

theorem witness_IllTypedRequestIsRefused :
    (asked plain (.call 0 {})).resetLine = false ∧ (asked plain (.call 0 {})).requests = [.call 0 {}] ∧
    decode (asked plain (.call 0 {})).cfg.opw (.call 0 {}) = .error .missingOperand := by decide

/-- FDEC busy, a request waiting, and the reset input asserted. -/
def resetting : State := { fdecBusy with resetLine := true }

theorem witness_ResetInputEmptiesTheBlock : resetting.resetLine = true := by decide

theorem witness_PresentedTableWordRunsNext :
    decodeTableWord 8 0b10 = some (.hdrenc false 0 false 0) := by decide

/-- For HdrencResult, HdrencHeaderLength, EncodersLeaveReservedBitsClear, HdrencMaskSetsOneBit and
OpcodeCountsModulo16: a length at each end of each tier. -/
theorem witness_HdrencResult :
    Spec.FitsLength plain 0 ∧ Spec.FitsLength plain 125 ∧ Spec.FitsLength plain 126 ∧
    Spec.FitsLength plain 65535 ∧ Spec.FitsLength plain 65536 ∧
    Spec.FitsLength plain 18446744073709551615 ∧ Spec.FitsLength small 4 := by decide

theorem witness_HdrencAdmission :
    4 ≤ small.cfg.lmax.val ∧ small.cfg.lmax.val < 5 ∧ plain.cfg.lmax.val < 18446744073709551616 := by
  decide

/-- For EncodersLeaveReservedBitsClear, EncodedFrameShape and EncodeEmitsTheShortestForm: an `ENCODE` that
puts a frame out. -/
theorem witness_EncodersLeaveReservedBitsClear :
    ∃ t f, exec (.encode hello 1 true true) plain = .next t ∧ t.fencOut = plain.fencOut ++ [.ok f] :=
  ⟨_, helloFrame, rfl, by decide⟩

theorem witness_HdrencIsInjective :
    ∃ t, exec (.hdrenc true 0x12 false 0) plain = .next t ∧
      exec (.hdrenc true 0x02 false 0) plain = .next t :=
  ⟨_, rfl, rfl⟩

theorem witness_XormaskResult :
    Spec.FitsLength small [1, 2, 3, (4 : Byte)].length ∧ 4 < hello.length ∧
    [1, 2, (3 : Byte)].length ≠ 4 ∧ [1, 2, 3, (4 : Byte)].length = 4 ∧
    small.cfg.lmax.val < hello.length := by decide

theorem witness_XormaskIsAnInvolution :
    [1, 2, 3, (4 : Byte)].length = 4 ∧ Spec.FitsLength plain hello.length := by decide

theorem witness_XormaskLaws :
    hello[4]? = [0, 0, 0, 0, (0x6F : Byte)][4]? ∧
    (keyBytes ⟨1, 2, 3, 4⟩)[4 % 4]? = (keyBytes ⟨1, 7, 8, 9⟩)[4 % 4]? ∧
    (∀ j, j < 4 → (keyBytes ⟨2, 3, 4, 1⟩)[j]? = (keyBytes ⟨1, 2, 3, 4⟩)[(j + hello.length % 4) % 4]?) ∧
    (hello.take 4).length % 4 = 0 := by decide

theorem witness_XormaskByChunks : ∀ c ∈ [hello.take 4, hello.take 4], c.length % 4 = 0 := by decide

/-- For EncodeResult, RandomnessUnavailableExactlyWithoutAKey and MaskedEncodeIsHeaderKeyAndMaskedData: a
source that delivers, and one that does not. -/
theorem witness_EncodeResult :
    Spec.FitsLength plain hello.length ∧ nextAnswer plain = .ok ⟨0x37, 0xFA, 0x21, 0x3D⟩ ∧
    Spec.FitsLength keyless hello.length ∧ ∀ k, nextAnswer keyless ≠ .ok k :=
  ⟨by decide, rfl, by decide, fun _ h => nomatch h⟩

theorem witness_EncodeAdmission :
    (hello.take 4).length ≤ small.cfg.lmax.val ∧ small.cfg.lmax.val < hello.length := by decide

/-- Two machines with different pasts and the same answer coming. -/
theorem witness_EncodeDependsOnRequestAndAnswer :
    ∃ t t', exec (.encode hello 1 true true) plain = .next t ∧
      exec (.encode hello 1 true true) { plain with rngBytes := 8, fencOut := [.ok []] } = .next t' ∧
      nextAnswer plain = nextAnswer { plain with rngBytes := 8, fencOut := [.ok []] } :=
  ⟨_, _, rfl, rfl, rfl⟩

theorem witness_OnlyMaskedEncodeAsksTheRandomSource :
    Spec.FitsLength (machine .clip 4 none [.short 3]) [(1 : Byte)].length ∧
    nextAnswer (machine .clip 4 none [.short 3]) = .short 3 ∧
    ∃ t, exec (.xormask [1, 2, 3, 4] []) plain = .next t :=
  ⟨by decide, rfl, _, rfl⟩

theorem witness_EachMaskedEncodeUsesItsOwnAnswer :
    Spec.FitsLength (machine .clip 4 none [.ok ⟨1, 2, 3, 4⟩, .ok ⟨0, 0, 0, 0⟩]) [(1 : Byte)].length ∧
    (machine .clip 4 none [.ok ⟨1, 2, 3, 4⟩, .ok ⟨0, 0, 0, 0⟩]).rngAnswers =
      .ok ⟨1, 2, 3, 4⟩ :: .ok ⟨0, 0, 0, 0⟩ :: [] := by decide

/-- For UnmaskedFrameResults, MaskedFrameResults and FrameFormsAboveFmaxAreRefused: a buffer of exactly
`FMAX` bytes, one byte more, and an unbounded `FMAX`. -/
theorem witness_FrameResults :
    Spec.FitsFrame small (2 + (hello.take 4).length) ∧ Spec.FitsFrame small (4 + (hello.take 2).length) ∧
    Spec.FitsFrame plain (10 + hello.length) ∧ ¬ Spec.FitsFrame small (2 + hello.length) ∧
    ¬ Spec.FitsFrame small (4 + (hello.take 3).length) ∧
    ¬ Spec.FitsFrame (machine .clip 4 (some 9) []) (10 + ([] : List Byte).length) :=
  ⟨fits_small_six, fits_small_six, fits_unbounded rfl _, not_fits_small_seven, not_fits_small_seven,
    fun h => absurd (h 9 rfl) (by decide)⟩

/-- For DecodeResult: a header that is not whole, a whole frame and a frame cut short. -/
theorem witness_DecodeResult :
    Spec.FitsFrame plain helloFrame.length ∧ parseHeader [0x81] = none ∧
    parseHeader helloFrame = some ⟨true, false, false, false, 1, true, 5, 6, 2⟩ ∧
    parseHeader (helloFrame.take 8) = some ⟨true, false, false, false, 1, true, 5, 6, 2⟩ ∧
    (helloFrame.take 8).length < 6 + 5 ∧ strict.cfg.truncPolicy = .fail :=
  ⟨fits_unbounded rfl _, by decide, by decide, by decide, by decide, by decide⟩

theorem witness_IncompleteHeaderIsTruncatedFrame :
    Spec.FitsFrame plain 9 ∧ [(0x81 : Byte)].length < 2 ∧
    (([0x81, 0xFE, 0x00] : List Byte).getD 1 0).toNat % 128 = 126 ∧
    ([0x81, 0xFE, 0x00] : List Byte).length < 4 ∧
    (([0x81, 0x7F, 0, 0, 0, 0, 0, 0, 0] : List Byte).getD 1 0).toNat % 128 = 127 ∧
    ([0x81, 0x7F, 0, 0, 0, 0, 0, 0, 0] : List Byte).length < 10 :=
  ⟨fits_unbounded rfl _, by decide, by decide, by decide, by decide, by decide⟩

/-- `LEN7` 125, 126 and 127, each with exactly the extended bytes it needs. -/
theorem witness_DecodedRecordFields :
    Spec.FitsFrame plain 10 ∧ plain.cfg.truncPolicy = .clip ∧ (0xFD : Byte).toNat % 128 = 125 ∧
    (0xFE : Byte).toNat % 128 = 126 ∧ 2 ≤ [(0 : Byte), 3].length ∧
    (0x7F : Byte).toNat % 128 = 127 ∧ 8 ≤ (List.replicate 8 (0xFF : Byte)).length :=
  ⟨fits_unbounded rfl _, by decide, by decide, by decide, by decide, by decide, by decide⟩

/-- A frame cut short under each policy, and a frame that just fits its buffer. -/
theorem witness_TruncationPolicies :
    (∀ n, Spec.FitsFrame plain n ∧ Spec.FitsFrame strict n) ∧
    parseHeader [0x81, 0x02, 0x48] = some ⟨true, false, false, false, 1, false, 2, 2, 2⟩ ∧
    ([0x81, 0x02, 0x48] : List Byte).length < 2 + 2 ∧ plain.cfg.truncPolicy = .clip ∧
    strict.cfg.truncPolicy = .fail ∧
    parseHeader [0x81, 0x02, 0x48, 0x69] = some ⟨true, false, false, false, 1, false, 2, 2, 2⟩ ∧
    2 + 2 ≤ ([0x81, 0x02, 0x48, 0x69] : List Byte).length :=
  ⟨fun n => ⟨fits_unbounded rfl n, fits_unbounded rfl n⟩, by decide, by decide, by decide, by decide,
    by decide, by decide⟩

/-- For TruncatedFlagCases and MetadataIsAsDeclared: the flag clear, and set in each of its three cases. -/
theorem witness_TruncatedFlagCases :
    (∃ t m, exec (.decode helloFrame) plain = .next t ∧ t.fdecOut = [.ok false hello m]) ∧
    (∃ t m, exec (.decode (helloFrame.take 8)) plain = .next t ∧ t.fdecOut = [.ok true [0x48, 0x65] m]) ∧
    (∃ t m, exec (.decode (helloFrame.take 6)) plain = .next t ∧ t.fdecOut = [.ok true [] m]) ∧
    ∃ t m, exec (.decode [0x88, 0x80, 1, 2]) plain = .next t ∧ t.fdecOut = [.ok true [] m] :=
  ⟨⟨_, _, rfl, rfl⟩, ⟨_, _, rfl, rfl⟩, ⟨_, _, rfl, rfl⟩, ⟨_, _, rfl, rfl⟩⟩

theorem witness_BytesAfterTheFrameAreIgnored :
    (∃ payload m, exec (.decode [0x81, 0x02, 0x48, 0x69]) small = .next { small with
      fdecPhase := .idle, fdecOut := small.fdecOut ++ [.ok false payload m] }) ∧
    Spec.FitsFrame small ([0x81, 0x02, 0x48, 0x69] ++ [0x82, 0x83] : List Byte).length :=
  ⟨⟨_, _, rfl⟩, fits_small_six⟩

theorem witness_DecodeAdmission :
    plain.cfg.fmax = none ∧ small.cfg.fmax = some 6 ∧ (helloFrame.take 6).length ≤ 6 ∧
    6 < (helloFrame.take 7).length := by decide

theorem witness_NonMinimalLengthIsDecodedAsWritten :
    (3 : BitVec 16).toNat = (hello.take 3).length ∧ Spec.FitsFrame plain 13 ∧
    (3 : BitVec 64).toNat = (hello.take 3).length :=
  ⟨by decide, fits_unbounded rfl _, by decide⟩

theorem witness_DecodeInvertsEncode :
    ∃ t f, exec (.encode hello 0x1F false true) plain = .next t ∧
      t.fencOut = plain.fencOut ++ [.ok f] ∧ Spec.FitsFrame t f.length :=
  ⟨_, [0x0F, 0x85, 0x37, 0xFA, 0x21, 0x3D, 0x7F, 0x9F, 0x4D, 0x51, 0x58], rfl, by decide,
    fits_unbounded rfl _⟩

theorem witness_ReissuedDecodeAnswersTheSame :
    ∃ t, exec (.decode (helloFrame.take 8)) strict = .next t ∧
      t.fdecOut = strict.fdecOut ++ [.truncatedFrame] :=
  ⟨_, rfl, by decide⟩

theorem witness_FirstOfSeveralFrames :
    ∃ t f, exec (.encode [0x48, 0x69] 1 true false) plain = .next t ∧
      t.fencOut = plain.fencOut ++ [.ok f] ∧ Spec.FitsFrame t (f ++ helloFrame).length :=
  ⟨_, [0x81, 0x02, 0x48, 0x69], rfl, by decide, fits_unbounded rfl _⟩

/-- For EveryInstructionKeepsItsFrame and StatusOfEachOperation. -/
theorem witness_EveryInstructionKeepsItsFrame :
    (∃ t, exec (.xormask [1, 2, 3, 4] hello) plain = .next t) ∧
    (∃ t, exec (.frameLU ⟨true, false, false, false, 1⟩ 0 []) plain = .next t) ∧
    ∃ t, exec (.encode hello 1 true true) keyless = .next t :=
  ⟨⟨_, rfl⟩, ⟨_, rfl⟩, ⟨_, rfl⟩⟩

/-- Two machines with the same configuration and different pasts. -/
theorem witness_ResponsesDependOnTheRequestAlone :
    plain.cfg = fdecBusy.cfg ∧ plain ≠ fdecBusy ∧ ∃ t, exec (.decode helloFrame) plain = .next t :=
  ⟨by decide, by decide, _, rfl⟩

theorem witness_DifferentUnitsCommute :
    (Instr.encode hello 1 true true).unit ≠ (Instr.decode helloFrame).unit ∧
    ∃ t u, exec (.encode hello 1 true true) plain = .next t ∧ exec (.decode helloFrame) t = .next u :=
  ⟨by decide, _, _, rfl, rfl⟩

theorem witness_AdmittedRequestsAreAnsweredOthersRefused :
    Spec.Admitted small (.encode (hello.take 4) 1 true true) ∧
    ¬ Spec.Admitted small (.encode hello 1 true true) ∧
    Spec.Admitted small (.decode (helloFrame.take 6)) ∧
    ¬ Spec.Admitted small (.decode (helloFrame.take 7)) ∧
    ¬ Spec.Admitted plain (.xormask [1, 2, 3] []) :=
  ⟨show (4 : Nat) ≤ 4 by decide, show ¬ (5 : Nat) ≤ 4 by decide, fits_small_six, not_fits_small_seven,
    fun h => absurd h.1 (by decide)⟩

/-- A machine that has already answered, with a request presented. -/
def answered : State := { asked strict (.wire helloFrame) with fdecOut := [.truncatedFrame] }

/-- The invariant holds of a machine that is not the one after reset, and its step goes on. -/
theorem witness_StepKeepsTheInvariant : Inv answered ∧ ∃ t, step answered = .next t :=
  ⟨⟨by decide, by decide, (fun _ h => nomatch h),
    (fun r h => by cases List.mem_singleton.1 h; trivial), (fun _ h => nomatch h),
    (fun _ h => nomatch h)⟩, _, rfl⟩

theorem witness_ConfigurationNeverChanges :
    (∃ t, step resetting = .next t) ∧ ∃ t, step (asked small (.wire [0x8A, 0x00])) = .next t :=
  ⟨⟨_, rfl⟩, ⟨_, rfl⟩⟩

theorem witness_FirstRequestAfterResetIsServed :
    resetting.resetLine = true ∧ resetting.requests = [.call 1 { frame := some helloFrame }] ∧
    decode resetting.cfg.opw (.call 1 { frame := some helloFrame }) = .ok (.decode helloFrame) ∧
    Spec.Admitted resetting (.decode helloFrame) :=
  ⟨rfl, rfl, rfl, fits_unbounded rfl _⟩

end Sys2Proof.Tests
end

section
/-! SUPPORT. Scope: what the decoder accepts, what a step does with an accepted request, and what a
presented word of the opcode table does. Settles O8 and O14. -/

namespace Sys2Proof.Machine

/-! ## Phases -/

@[simp] theorem setPhase_setPhase (s : State) (u : UnitId) (p q : Phase) :
    setPhase (setPhase s u p) u q = setPhase s u q := by cases u <;> rfl

/-- Setting a phase and replacing the waiting requests commute. -/
theorem setPhase_withRequests (s : State) (u : UnitId) (p : Phase) (rs : List Request) :
    { setPhase s u p with requests := rs } = setPhase { s with requests := rs } u p := by
  cases u <;> rfl

/-! ## The decoder -/

/-- The decoder answers exactly the assembled instruction, when its operands have their types. -/
theorem decode_eq_ok_iff {opw : Nat} {r : Request} {i : Instr} :
    decode opw r = .ok i ↔ assemble r = .ok i ∧ i.wf opw := by
  unfold decode
  cases assemble r with
  | error e => simp
  | ok j =>
    cases hj : j.illTyped opw with
    | none =>
      simp only [hj, Except.ok.injEq, iff_self_and]
      rintro rfl
      exact hj
    | some e =>
      simp only [hj, reduceCtorEq, Except.ok.injEq, false_iff, not_and]
      rintro rfl
      simp [Instr.wf, hj]

/-- A buffer off the wire decodes to a well-formed instruction whatever `OPW` is. -/
theorem decodeWire_wf (opw : Nat) (frame : List Byte) : (decodeWire frame).wf opw := by
  rcases frame_cases frame with ⟨t, m, l, r, rfl⟩ | ⟨t, m, l, r, rfl⟩ | ⟨t, m, l, r, rfl⟩ | ⟨-, hw⟩
  · rw [decodeWire_frameBytesS]
    cases m <;> rfl
  · rw [decodeWire_frameBytesM]
    cases m <;> rfl
  · rw [decodeWire_frameBytesL]
    cases m <;> rfl
  · rw [hw]
    rfl

/-! ## The step -/

/-- A step with a decoded request for an `IDLE` unit runs it (10_state.md R15). -/
theorem step_eq_exec_takeRequest {s : State} {r : Request} {rest : List Request} {i : Instr}
    (hreset : s.resetLine = false) (hreq : s.requests = r :: rest) (hdec : decode s.cfg.opw r = .ok i)
    (hidle : phaseOf s i.unit = .idle) : step s = exec i (takeRequest s i.unit rest) := by
  have hfetch : fetch s = .run i (takeRequest s i.unit rest) := by
    simp [fetch, hreset, hreq, hdec, hidle]
  rw [step, hfetch]

/-- Settles O8: `fetch` takes the request, and taking it is being `BUSY` with the rest waiting. -/
theorem stepRunsTheDecodedInstruction : Obligations.StepRunsTheDecodedInstruction :=
  fun _ _ _ _ hreset hreq hdec hidle => step_eq_exec_takeRequest hreset hreq hdec hidle

/-! ## The opcode table's words -/

/-- The record with every operand zero assembles to an instruction that is well-formed whatever `OPW` is:
its opcode is 0 and its key has 4 bytes. -/
theorem assemble_zeroRecord (u : BitVec 2) :
    ∃ i, assemble (.call u (zeroRecord (unitOfNumber u))) = .ok i ∧ ∀ opw, i.wf opw := by
  simp only [assemble]
  cases unitOfNumber u with
  | fenc => exact ⟨.encode [] 0 false false, rfl, fun opw => if_pos (Nat.two_pow_pos opw)⟩
  | fdec => exact ⟨.decode [], rfl, fun _ => rfl⟩
  | vlhe => exact ⟨.hdrenc false 0 false 0, rfl, fun opw => if_pos (Nat.two_pow_pos opw)⟩
  | xme => exact ⟨.xormask [0, 0, 0, 0] [], rfl, fun _ => rfl⟩

/-- The request of a table word assembles to an instruction that is well-formed whatever `OPW` is. -/
theorem assemble_tableRequest {nbits w : Nat} {r : Request} (h : tableRequest nbits w = some r) :
    ∃ i, assemble r = .ok i ∧ ∀ opw, i.wf opw := by
  unfold tableRequest at h
  split at h
  · cases h
    exact ⟨_, rfl, fun opw => decodeWire_wf opw _⟩
  · split at h
    · cases h
      exact assemble_zeroRecord _
    · cases h

/-- A table word that decodes stands for a request that decodes to the same instruction in every
configuration, not only in the default one. -/
theorem decode_of_decodeTableWord {nbits w : Nat} {i : Instr} (h : decodeTableWord nbits w = some i) :
    ∃ r, tableRequest nbits w = some r ∧ ∀ opw, decode opw r = .ok i := by
  unfold decodeTableWord at h
  split at h
  · rename_i r hr
    split at h
    · rename_i j hj
      cases h
      obtain ⟨k, hk, hwf⟩ := assemble_tableRequest hr
      obtain ⟨hi, -⟩ := decode_eq_ok_iff.1 hj
      obtain rfl : k = i := Except.ok.inj (hk.symm.trans hi)
      exact ⟨r, hr, fun opw => decode_eq_ok_iff.2 ⟨hk, hwf opw⟩⟩
    · cases h
  · cases h

/-- Presenting a word that stands for `i`: its request is first, the reset input is not asserted and `i`'s
unit is ready. -/
theorem withFetchWord_eq {s : State} {nbits w : Nat} {r : Request} {i : Instr}
    (hr : tableRequest nbits w = some r) (hdec : decode s.cfg.opw r = .ok i) :
    s.withFetchWord nbits w =
      setPhase { s with requests := r :: s.requests, resetLine := false } i.unit .idle := by
  simp only [State.withFetchWord, presentWord, hr, hdec]

/-- Settles O14: the presented request meets the hypotheses of `step_eq_exec_takeRequest`, and taking it
again leaves the requests that were there before. -/
theorem presentedTableWordRunsNext : Obligations.PresentedTableWordRunsNext := by
  intro s nbits w i h
  obtain ⟨r, hr, hdec⟩ := decode_of_decodeTableWord h
  rw [withFetchWord_eq hr (hdec _),
    step_eq_exec_takeRequest (rest := s.requests) (by simp) (by simp) (hdec _) (by simp), takeRequest,
    setPhase_withRequests, setPhase_setPhase]

end Sys2Proof.Machine
end

section
/-! SUPPORT. State: what a step can do, what an instruction leaves unchanged, and what the random source
sees. Settles O5, O9, O12, O13, O30, O52, O53, O56 and O59. -/

namespace Sys2Proof.Machine

/-- Settles O5: being well-formed is what the decoder checks last. -/
theorem decodedRequestsAreWellFormed : Obligations.DecodedRequestsAreWellFormed :=
  fun _ _ _ hdec => (decode_eq_ok_iff.1 hdec).2

/-! ## The step, one equation per way it goes -/

/-- The reset input comes before any request (70_reset_and_hazards.md R136). -/
theorem step_of_resetLine {s : State} (hreset : s.resetLine = true) : step s = .next (applyReset s) := by
  have hfetch : fetch s = .reset (applyReset s) := by simp [fetch, hreset]
  rw [step, hfetch]

theorem step_of_no_request {s : State} (hreset : s.resetLine = false) (hreq : s.requests = []) :
    step s = .next s := by
  have hfetch : fetch s = .nothing := by simp [fetch, hreset, hreq]
  rw [step, hfetch]

/-- A request to a `BUSY` unit waits (10_state.md R15). -/
theorem step_of_busy {s : State} {r : Request} {rest : List Request} {i : Instr}
    (hreset : s.resetLine = false) (hreq : s.requests = r :: rest) (hdec : decode s.cfg.opw r = .ok i)
    (hbusy : phaseOf s i.unit = .busy) : step s = .next s := by
  have hfetch : fetch s = .waiting := by simp [fetch, hreset, hreq, hdec, hbusy]
  rw [step, hfetch]

theorem step_of_illTyped {s : State} {r : Request} {rest : List Request} {e : DecodeError}
    (hreset : s.resetLine = false) (hreq : s.requests = r :: rest)
    (hdec : decode s.cfg.opw r = .error e) : step s = .refused (.illTypedRequest e) := by
  have hfetch : fetch s = .illTyped e := by simp [fetch, hreset, hreq, hdec]
  rw [step, hfetch]

/-- Everything a step that goes on can do: reset, nothing, or run the oldest request. -/
theorem step_next {s t : State} (h : step s = .next t) :
    (s.resetLine = true ∧ t = applyReset s) ∨
    (s.resetLine = false ∧ t = s) ∨
    (s.resetLine = false ∧ ∃ r rest i, s.requests = r :: rest ∧ decode s.cfg.opw r = .ok i ∧
      phaseOf s i.unit = .idle ∧ exec i (takeRequest s i.unit rest) = .next t) := by
  cases hreset : s.resetLine with
  | true =>
    rw [step_of_resetLine hreset] at h
    cases h
    exact .inl ⟨rfl, rfl⟩
  | false =>
    refine .inr ?_
    cases hreq : s.requests with
    | nil =>
      rw [step_of_no_request hreset hreq] at h
      cases h
      exact .inl ⟨rfl, rfl⟩
    | cons r rest =>
      cases hdec : decode s.cfg.opw r with
      | error e =>
        rw [step_of_illTyped hreset hreq hdec] at h
        cases h
      | ok i =>
        cases hphase : phaseOf s i.unit with
        | busy =>
          rw [step_of_busy hreset hreq hdec hphase] at h
          cases h
          exact .inl ⟨rfl, rfl⟩
        | idle =>
          rw [step_eq_exec_takeRequest hreset hreq hdec hphase] at h
          exact .inr ⟨rfl, r, rest, i, rfl, hdec, hphase, h⟩

/-- Settles O9: `fetch` answers `waiting`, on which a step keeps the state. -/
theorem requestToABusyUnitWaits : Obligations.RequestToABusyUnitWaits :=
  fun _ _ _ _ hreset hreq hdec hbusy => step_of_busy hreset hreq hdec hbusy

/-- Settles O12: the state written out in the statement is `applyReset`'s. -/
theorem resetInputEmptiesTheBlock : Obligations.ResetInputEmptiesTheBlock :=
  fun _ hreset => step_of_resetLine hreset

/-- Settles O13: the fields of the reset state as the model lists them. -/
theorem resetStateIsEmpty : Obligations.ResetStateIsEmpty :=
  ⟨⟨rfl, rfl, rfl, rfl⟩, rfl, rfl, rfl, rfl, rfl, rfl, rfl, rfl, rfl⟩

/-! ## What an instruction does to the random source -/

/-- The masked `ENCODE` is the one instruction that asks for a key (10_state.md R31). -/
theorem drawsKey_iff {i : Instr} :
    Spec.drawsKey i = true ↔ ∃ payload opcode fin, i = .encode payload opcode fin true := by
  cases i <;> simp [Spec.drawsKey]

theorem drawsKey_eq_false_iff {i : Instr} :
    Spec.drawsKey i = false ↔ ∀ payload opcode fin, i ≠ .encode payload opcode fin true := by
  rw [← Bool.not_eq_true, drawsKey_iff]
  simp

/-- The state from which an instruction ends its transaction: the source has answered, if it was asked. -/
def keyTaken (i : Instr) (s : State) : State :=
  if Spec.drawsKey i then afterRequest s else s

theorem keyTaken_of_draws {i : Instr} {s : State} (h : Spec.drawsKey i = true) :
    keyTaken i s = afterRequest s := if_pos h

theorem keyTaken_of_not_draws {i : Instr} {s : State} (h : Spec.drawsKey i = false) :
    keyTaken i s = s := by simp [keyTaken, h]

@[simp] theorem phaseOf_afterRequest (s : State) (u : UnitId) :
    phaseOf (afterRequest s) u = phaseOf s u := by
  cases u <;> rfl

@[simp] theorem keyTaken_cfg (i : Instr) (s : State) : (keyTaken i s).cfg = s.cfg := by
  unfold keyTaken; split <;> rfl

@[simp] theorem keyTaken_requests (i : Instr) (s : State) :
    (keyTaken i s).requests = s.requests := by unfold keyTaken; split <;> rfl

@[simp] theorem keyTaken_resetLine (i : Instr) (s : State) :
    (keyTaken i s).resetLine = s.resetLine := by unfold keyTaken; split <;> rfl

@[simp] theorem phaseOf_keyTaken (i : Instr) (s : State) (u : UnitId) :
    phaseOf (keyTaken i s) u = phaseOf s u := by unfold keyTaken; split <;> simp

@[simp] theorem keyTaken_fencOut (i : Instr) (s : State) : (keyTaken i s).fencOut = s.fencOut := by
  unfold keyTaken; split <;> rfl

@[simp] theorem keyTaken_fdecOut (i : Instr) (s : State) : (keyTaken i s).fdecOut = s.fdecOut := by
  unfold keyTaken; split <;> rfl

@[simp] theorem keyTaken_vlheOut (i : Instr) (s : State) : (keyTaken i s).vlheOut = s.vlheOut := by
  unfold keyTaken; split <;> rfl

@[simp] theorem keyTaken_xmeOut (i : Instr) (s : State) : (keyTaken i s).xmeOut = s.xmeOut := by
  unfold keyTaken; split <;> rfl

/-- An instruction that goes on ends with its response, from the state in which its key is taken. -/
theorem exec_next_eq {i : Instr} {s t : State} (h : exec i s = .next t) :
    t = finish (Spec.response s.cfg (nextAnswer s) i) (keyTaken i s) :=
  (exec_next h).2

/-- Settles O30: whether the instruction draws a key decides which clause holds; a short answer delivers
no key. -/
theorem onlyMaskedEncodeAsksTheRandomSource : Obligations.OnlyMaskedEncodeAsksTheRandomSource := by
  constructor
  · intro i s t h
    rw [exec_next_eq h]
    cases hk : Spec.drawsKey i with
    | true => exact .inl ⟨drawsKey_iff.1 hk, by simp [keyTaken_of_draws hk]⟩
    | false => exact .inr ⟨drawsKey_eq_false_iff.1 hk, by simp [keyTaken_of_not_draws hk]⟩
  · intro payload opcode fin s n hfit hshort
    refine ⟨_, exec_admitted hfit, ?_, ?_⟩
    · simp [Spec.response, Spec.encodeAnswer, Spec.drawsKey, hshort]
    · simp [Spec.drawsKey, hshort, keyDelivered]

/-! ## The frame of every instruction -/

/-! A response is one more of its unit's and leaves the other units' responses as they were
(10_state.md R14). -/

theorem finish_fencOut_cases (r : Response) (s : State) :
    if responder r = .fenc then ∃ x, (finish r s).fencOut = s.fencOut ++ [x]
    else (finish r s).fencOut = s.fencOut := by
  cases r <;> simp [responder]

theorem finish_fdecOut_cases (r : Response) (s : State) :
    if responder r = .fdec then ∃ x, (finish r s).fdecOut = s.fdecOut ++ [x]
    else (finish r s).fdecOut = s.fdecOut := by
  cases r <;> simp [responder]

theorem finish_vlheOut_cases (r : Response) (s : State) :
    if responder r = .vlhe then ∃ x, (finish r s).vlheOut = s.vlheOut ++ [x]
    else (finish r s).vlheOut = s.vlheOut := by
  cases r <;> simp [responder]

theorem finish_xmeOut_cases (r : Response) (s : State) :
    if responder r = .xme then ∃ x, (finish r s).xmeOut = s.xmeOut ++ [x]
    else (finish r s).xmeOut = s.xmeOut := by
  cases r <;> simp [responder]

/-- Settles O52: `finish` and the taking of a key keep everything else, field by field. -/
theorem everyInstructionKeepsItsFrame : Obligations.EveryInstructionKeepsItsFrame := by
  intro i s t h
  have ht := exec_next_eq h
  generalize hr : Spec.response s.cfg (nextAnswer s) i = r at ht
  have hunit : responder r = i.unit := hr ▸ responder_response _ _ _
  subst ht
  refine ⟨by simp, by simp, by simp, fun u => ?phases, ?fenc, ?fdec, ?vlhe, ?xme, fun hi => ?source⟩
  case phases => rw [phaseOf_finish, hunit, phaseOf_keyTaken]
  case fenc => simpa [hunit] using finish_fencOut_cases r (keyTaken i s)
  case fdec => simpa [hunit] using finish_fdecOut_cases r (keyTaken i s)
  case vlhe => simpa [hunit] using finish_vlheOut_cases r (keyTaken i s)
  case xme => simpa [hunit] using finish_xmeOut_cases r (keyTaken i s)
  case source => simp [keyTaken_of_not_draws (drawsKey_eq_false_iff.2 hi)]

/-- An instruction keeps the configuration (10_state.md R24). -/
theorem exec_cfg {i : Instr} {s t : State} (h : exec i s = .next t) : t.cfg = s.cfg := by
  simp [exec_next_eq h]

/-- Settles O59: reset, waiting and every instruction keep the configuration. -/
theorem configurationNeverChanges : Obligations.ConfigurationNeverChanges := by
  intro s t h
  obtain ⟨-, rfl⟩ | ⟨-, rfl⟩ | ⟨-, r, rest, i, -, -, -, hexec⟩ := step_next h
  · exact applyReset_cfg s
  · rfl
  · simpa using exec_cfg hexec

/-! ## What a response depends on -/

/-- Without a key to draw, the source's answer does not reach the response (10_state.md R13). -/
theorem response_eq_of_not_draws {i : Instr} (h : Spec.drawsKey i = false) (c : Config)
    (a a' : RngAnswer) : Spec.response c a i = Spec.response c a' i := by
  cases i with
  | encode payload opcode fin mask =>
    obtain rfl : mask = false := h
    rfl
  | _ => rfl

/-- Admission looks at the configuration alone (60_exceptions.md R118). -/
theorem admitted_congr {s s' : State} (hcfg : s.cfg = s'.cfg) (i : Instr) :
    Spec.Admitted s i ↔ Spec.Admitted s' i := by
  cases i <;> simp only [Spec.Admitted, Spec.FitsFrame, Spec.FitsLength, hcfg]

/-- An instruction goes on exactly when it is admitted. -/
theorem exec_goes_on_iff {i : Instr} {s : State} : (∃ t, exec i s = .next t) ↔ Spec.Admitted s i :=
  ⟨fun ⟨_, h⟩ => (exec_next h).1, fun h => ⟨_, exec_admitted h⟩⟩

/-- Settles O53: the function is `Spec.response`, and the state that gives the response is the one in which
the key is taken. -/
theorem responsesDependOnTheRequestAlone : Obligations.ResponsesDependOnTheRequestAlone := by
  refine ⟨Spec.response, fun i s t h => ?_, fun c a a' i hi => ?_, fun i s s' hcfg => ?_⟩
  · exact ⟨keyTaken i s, exec_next_eq h, by simp⟩
  · exact response_eq_of_not_draws (drawsKey_eq_false_iff.2 hi) c a a'
  · rw [exec_goes_on_iff, exec_goes_on_iff, admitted_congr hcfg]

/-- The status of a response: `OK`, or one of the two error results (60_exceptions.md R116). -/
theorem responseStatus_cases (r : Response) :
    responseStatus r = .ok ∨
    (responseStatus r = .randomnessUnavailable ∧ r = .encode .randomnessUnavailable) ∨
    (responseStatus r = .truncatedFrame ∧ responder r = .fdec) := by
  rcases r with (_ | _) | (_ | _) | _ | _
  · exact .inl rfl
  · exact .inr (.inl ⟨rfl, rfl⟩)
  · exact .inl rfl
  · exact .inr (.inr ⟨rfl, rfl⟩)
  · exact .inl rfl
  · exact .inl rfl

/-- Only an instruction that draws a key can be left without one (42_frame_encoder.md R93). -/
theorem drawsKey_of_response {c : Config} {a : RngAnswer} {i : Instr}
    (h : Spec.response c a i = .encode .randomnessUnavailable) : Spec.drawsKey i = true := by
  cases i with
  | encode payload opcode fin mask =>
    cases mask with
    | true => rfl
    | false => cases h
  | _ => cases h

/-- Settles O56: the codes by definition; the status by what kind of response the instruction's is. -/
theorem statusOfEachOperation : Obligations.StatusOfEachOperation := by
  refine ⟨rfl, rfl, rfl, fun i s t h => ?_⟩
  have hunit := responder_response s.cfg (nextAnswer s) i
  refine ⟨_, keyTaken i s, exec_next_eq h, by simp, by simp, by simp, by simp, hunit, ?_⟩
  obtain hok | ⟨hstatus, hr⟩ | ⟨hstatus, hr⟩ := responseStatus_cases (Spec.response s.cfg (nextAnswer s) i)
  · exact .inl hok
  · exact .inr (.inl ⟨hstatus, drawsKey_iff.1 (drawsKey_of_response hr)⟩)
  · exact .inr (.inr ⟨hstatus, hunit.symm.trans hr⟩)

end Sys2Proof.Machine
end

section
/-! SUPPORT. The invariant: every response the rules give is legal, and every step keeps the invariant.
Settles O57 and O58. -/

namespace Sys2Proof.Machine

/-! ## The invariant, over responses of any unit -/

/-- The caller has been given this response. -/
def Given (s : State) : Response → Prop
  | .encode r => r ∈ s.fencOut
  | .decode r => r ∈ s.fdecOut
  | .hdrenc r => r ∈ s.vlheOut
  | .xormask r => r ∈ s.xmeOut

/-- What the invariant says of one response, by its unit. -/
def LegalResponse (c : Config) : Response → Prop
  | .encode r => LegalEncodeResponse r
  | .decode r => LegalDecodeResponse c.truncPolicy r
  | .hdrenc r => LegalHdrencResponse r
  | .xormask (.ok d) => d.length ≤ c.lmax.val

theorem given_finish {r r' : Response} {s : State} :
    Given (finish r s) r' ↔ Given s r' ∨ r' = r := by
  cases r <;> cases r' <;> simp [Given]

@[simp] theorem given_keyTaken {i : Instr} {s : State} {r : Response} :
    Given (keyTaken i s) r ↔ Given s r := by
  cases r <;> simp [Given]

@[simp] theorem given_takeRequest {s : State} {u : UnitId} {rest : List Request} {r : Response} :
    Given (takeRequest s u rest) r ↔ Given s r := by
  cases r <;> simp [Given]

theorem not_given_applyReset {s : State} {r : Response} : ¬ Given (applyReset s) r := by
  cases r <;> simp [Given]

theorem allIdle_iff {s : State} : AllIdle s ↔ ∀ u, phaseOf s u = .idle := by
  constructor
  · rintro ⟨hfenc, hfdec, hvlhe, hxme⟩ (_ | _ | _ | _) <;> assumption
  · intro h
    exact ⟨h .fenc, h .fdec, h .vlhe, h .xme⟩

theorem inv_iff {s : State} :
    Inv s ↔ LegalConfig s.cfg ∧ (∀ u, phaseOf s u = .idle) ∧
      ∀ r, Given s r → LegalResponse s.cfg r := by
  constructor
  · rintro ⟨hcfg, hidle, hfenc, hfdec, hvlhe, hxme⟩
    refine ⟨hcfg, allIdle_iff.1 hidle, fun r hr => ?_⟩
    match r with
    | .encode r => exact hfenc r hr
    | .decode r => exact hfdec r hr
    | .hdrenc r => exact hvlhe r hr
    | .xormask (.ok d) => exact hxme d hr
  · rintro ⟨hcfg, hidle, hlegal⟩
    exact ⟨hcfg, allIdle_iff.2 hidle, fun r => hlegal (.encode r), fun r => hlegal (.decode r),
      fun r => hlegal (.hdrenc r), fun d => hlegal (.xormask (.ok d))⟩

/-- Settles O58: the default configuration is legal, and no response has been given. -/
theorem resetMeetsTheInvariant : Obligations.ResetMeetsTheInvariant := by
  refine inv_iff.2 ⟨by decide, allIdle_iff.1 ⟨rfl, rfl, rfl, rfl⟩, fun r hr => ?_⟩
  cases r <;> cases hr

/-! ## Encoded headers parse back -/

/-- A header of the shortest form, whatever follows it, parses to the record of what it encodes
(40_header_encoder.md R73 to R75, 43_frame_decoder.md R101). -/
theorem parseHeader_hdrEnc_append (fin : Bool) (opcode : Nat) (mask : Bool) (n : Nat) (rest : List Byte) :
    parseHeader (hdrEnc fin opcode mask n ++ rest) =
      some (metaOf (Spec.encodedTag fin opcode) mask (shortestHeader n) (BitVec.ofNat 64 n)) := by
  unfold shortestHeader
  split
  · rename_i hshort
    rw [hdrEnc_short fin opcode mask hshort]
    exact parseHeader_frameBytesS _ mask ⟨n, by omega⟩ rest
  · split
    · rename_i hlong hmedium
      have hwidth : (BitVec.ofNat 16 n).setWidth 64 = BitVec.ofNat 64 n := by
        apply BitVec.eq_of_toNat_eq
        simp
        omega
      rw [hdrEnc_medium fin opcode mask (by omega) hmedium, ← hwidth, frameBytesM, List.append_nil]
      exact parseHeader_frameBytesM _ mask _ rest
    · rw [hdrEnc_long fin opcode mask (by omega), frameBytesL, List.append_nil]
      exact parseHeader_frameBytesL _ mask _ rest

/-! ## Every response the rules give is legal -/

@[simp] theorem masked_length (key data : List Byte) : (Spec.masked key data).length = data.length := by
  simp [Spec.masked]

/-- A header is legal in `HDRENC`'s response. -/
theorem legal_header (fin : Bool) (opcode : Nat) (mask : Bool) {n : Nat} (h : n < 2 ^ 64) :
    LegalHdrencResponse (.ok (Spec.header fin opcode mask n)) := by
  have hparse := parseHeader_hdrEnc_append fin opcode mask n []
  rw [List.append_nil] at hparse
  rw [← hdrEnc_eq_header fin opcode mask h]
  refine ⟨_, hparse, rfl, rfl, rfl, ?_, hdrEnc_length fin opcode mask n⟩
  simp only [metaOf, BitVec.toNat_ofNat, Nat.mod_eq_of_lt h]

/-- A header with the bytes its length and mask bit announce is legal in `ENCODE`'s response. -/
theorem legal_frame (fin : Bool) (opcode : Nat) (mask : Bool) {n : Nat} (h : n < 2 ^ 64)
    {body : List Byte} (hbody : body.length = (if mask then 4 else 0) + n) :
    LegalEncodeResponse (.ok (Spec.header fin opcode mask n ++ body)) := by
  rw [← hdrEnc_eq_header fin opcode mask h]
  refine ⟨_, parseHeader_hdrEnc_append fin opcode mask n body, rfl, rfl, rfl, ?_, rfl, ?_⟩
  · simp only [metaOf, BitVec.toNat_ofNat, Nat.mod_eq_of_lt h]
  · simp only [metaOf, payloadOffsetOf, BitVec.toNat_ofNat, Nat.mod_eq_of_lt h, List.length_append,
      hdrEnc_length, hbody]
    omega

/-- Every answer of an admitted `ENCODE` is legal: header, key and masked payload, header and payload, or
the error. -/
theorem legal_encodeAnswer (a : RngAnswer) (payload : List Byte) (opcode : Nat) (fin mask : Bool)
    (h : payload.length < 2 ^ 64) :
    LegalEncodeResponse (Spec.encodeAnswer a payload opcode fin mask) := by
  cases mask with
  | false => exact legal_frame fin opcode false h (by simp)
  | true =>
    cases a with
    | ok k =>
      simp only [Spec.encodeAnswer, if_true, List.append_assoc]
      exact legal_frame fin opcode true h (by simp)
    | short n => trivial
    | unavailable => trivial

/-- A header form holds a length (10_state.md R17). -/
abbrev FormHolds (headerLength length : Nat) : Prop :=
  headerLength = 2 ∧ length ≤ 125 ∨ headerLength = 4 ∧ length ≤ 65535 ∨ headerLength = 10

/-- Every answer of `DECODE` on a whole header is legal: no more payload bytes than declared, exactly as many
when the bytes after the header are all there, and an error where `FAIL` meets a truncated buffer
(43_frame_decoder.md R106, R108, R109). -/
theorem legal_decoded (policy : TruncPolicy) (tag : FrameTag) (hasMask : Bool) {headerLength length : Nat}
    (hlt : length < 2 ^ 64) (hform : FormHolds headerLength length) (rest : List Byte) :
    LegalDecodeResponse policy (Spec.decoded policy tag hasMask headerLength length rest) := by
  simp only [Spec.decoded]
  generalize htrunc : decide (rest.length < if hasMask then 4 + length else length) = truncated
  split
  · trivial
  · rename_i hpolicy
    have htoNat : (BitVec.ofNat 64 length).toNat = length := by
      rw [BitVec.toNat_ofNat, Nat.mod_eq_of_lt hlt]
    refine ⟨⟨?form, ?offset⟩, ?bound, ?exact, ?strict⟩
    case form => simpa only [Spec.record, htoNat] using hform
    case offset => cases hasMask <;> rfl
    case bound => cases hasMask <;> simp [Spec.record, htoNat]
    case exact =>
      rintro rfl
      have henough := of_decide_eq_false htrunc
      cases hasMask <;> simp [Spec.record, htoNat] at henough ⊢ <;> omega
    case strict =>
      rintro rfl
      simpa using hpolicy

theorem legal_decoded_S (policy : TruncPolicy) (tag : FrameTag) (hasMask : Bool) (len7 : Fin 126)
    (rest : List Byte) :
    LegalDecodeResponse policy (Spec.decoded policy tag hasMask 2 len7.val rest) :=
  legal_decoded policy tag hasMask (by omega) (.inl ⟨rfl, by omega⟩) rest

theorem legal_decoded_M (policy : TruncPolicy) (tag : FrameTag) (hasMask : Bool) (len16 : BitVec 16)
    (rest : List Byte) :
    LegalDecodeResponse policy (Spec.decoded policy tag hasMask 4 len16.toNat rest) :=
  legal_decoded policy tag hasMask (by omega) (.inr (.inl ⟨rfl, by omega⟩)) rest

theorem legal_decoded_L (policy : TruncPolicy) (tag : FrameTag) (hasMask : Bool) (len64 : BitVec 64)
    (rest : List Byte) :
    LegalDecodeResponse policy (Spec.decoded policy tag hasMask 10 len64.toNat rest) :=
  legal_decoded policy tag hasMask len64.isLt (.inr (.inr rfl)) rest

/-- Every answer of `DECODE` is legal: it is its frame form's, or the error (43_frame_decoder.md R103). -/
theorem legal_decodeAnswer (policy : TruncPolicy) (frame : List Byte) :
    LegalDecodeResponse policy (Spec.decodeAnswer policy frame) := by
  unfold Spec.decodeAnswer
  split
  · exact legal_decoded_M ..
  · exact legal_decoded_M ..
  · exact legal_decoded_L ..
  · exact legal_decoded_L ..
  · exact legal_decoded_S ..
  · exact legal_decoded_S ..
  · trivial

/-- The response of every admitted instruction is legal. -/
theorem legal_response {i : Instr} {s : State} (a : RngAnswer) (h : Spec.Admitted s i) :
    LegalResponse s.cfg (Spec.response s.cfg a i) := by
  cases i with
  | frameMU tag len16 rest => exact legal_decoded_M ..
  | frameMK tag len16 rest => exact legal_decoded_M ..
  | frameLU tag len64 rest => exact legal_decoded_L ..
  | frameLK tag len64 rest => exact legal_decoded_L ..
  | frameSU tag len7 rest => exact legal_decoded_S ..
  | frameSK tag len7 rest => exact legal_decoded_S ..
  | encode payload opcode fin mask => exact legal_encodeAnswer a payload opcode fin mask (lmax_lt h)
  | decode frame => exact legal_decodeAnswer ..
  | hdrenc fin opcode mask length => exact legal_header fin opcode mask (lmax_lt h)
  | xormask key data =>
    obtain ⟨-, hfit⟩ := h
    exact (masked_length key data).trans_le hfit

/-! ## Every step keeps the invariant -/

theorem inv_applyReset {s : State} (h : Inv s) : Inv (applyReset s) := by
  obtain ⟨hcfg, -, -⟩ := inv_iff.1 h
  exact inv_iff.2 ⟨hcfg, applyReset_phaseOf s, fun _ hr => absurd hr not_given_applyReset⟩

/-- A transaction keeps the invariant: the unit that took the request is `IDLE` again, and one legal response
joins those given before. -/
theorem inv_exec_takeRequest {i : Instr} {s t : State} {rest : List Request} (h : Inv s)
    (hexec : exec i (takeRequest s i.unit rest) = .next t) : Inv t := by
  obtain ⟨hcfg, hidle, hlegal⟩ := inv_iff.1 h
  have hkeep : t.cfg = s.cfg := by simpa using exec_cfg hexec
  have hnew := legal_response (nextAnswer (takeRequest s i.unit rest)) (exec_next hexec).1
  obtain rfl := exec_next_eq hexec
  refine inv_iff.2 ⟨hkeep ▸ hcfg, fun u => ?phases, fun r hr => ?responses⟩
  case phases =>
    rw [phaseOf_finish, responder_response, phaseOf_keyTaken, phaseOf_takeRequest, hidle]
    split <;> rfl
  case responses =>
    rw [hkeep]
    rw [takeRequest_cfg] at hnew
    obtain hold | rfl := given_finish.1 hr
    · exact hlegal r (by simpa using hold)
    · simpa using hnew

/-- Settles O57: reset, waiting and every transaction keep the invariant. -/
theorem stepKeepsTheInvariant : Obligations.StepKeepsTheInvariant := by
  intro s t hinv h
  obtain ⟨-, rfl⟩ | ⟨-, rfl⟩ | ⟨-, r, rest, i, -, -, -, hexec⟩ := step_next h
  · exact inv_applyReset hinv
  · exact hinv
  · exact inv_exec_takeRequest hinv hexec

end Sys2Proof.Machine
end

section
/-! SUPPORT. Memory: what transactions on different units do to one another. Settles O54. -/

namespace Sys2Proof.Machine

/-! ## The parts of two transactions commute -/

/-- Two units end their transactions in either order. -/
theorem finish_comm {r r' : Response} (h : responder r ≠ responder r') (s : State) :
    finish r (finish r' s) = finish r' (finish r s) := by
  cases r <;> cases r' <;> simp [responder] at h ⊢

@[simp] theorem nextAnswer_finish (r : Response) (s : State) :
    nextAnswer (finish r s) = nextAnswer s := by cases r <;> rfl

theorem afterRequest_finish (r : Response) (s : State) :
    afterRequest (finish r s) = finish r (afterRequest s) := by cases r <;> rfl

/-- Taking a key and ending another transaction commute: the source is no part of any unit. -/
theorem keyTaken_finish (i : Instr) (r : Response) (s : State) :
    keyTaken i (finish r s) = finish r (keyTaken i s) := by
  unfold keyTaken
  split
  · exact afterRequest_finish r s
  · rfl

theorem keyTaken_comm (i j : Instr) (s : State) :
    keyTaken i (keyTaken j s) = keyTaken j (keyTaken i s) := by
  unfold keyTaken
  split <;> split <;> rfl

/-! ## A transaction does not reach another unit's response -/

/-- Only FENC draws keys (10_state.md R31). -/
theorem unit_of_drawsKey {i : Instr} (h : Spec.drawsKey i = true) : i.unit = .fenc := by
  obtain ⟨_, _, _, rfl⟩ := drawsKey_iff.1 h
  rfl

/-- An instruction that draws no key leaves the source's next answer as it was. -/
theorem nextAnswer_of_exec {i : Instr} {s t : State} (hk : Spec.drawsKey i = false)
    (h : exec i s = .next t) : nextAnswer t = nextAnswer s := by
  rw [exec_next_eq h, nextAnswer_finish, keyTaken_of_not_draws hk]

/-- An instruction does not change what another unit answers: of two units at most one draws a key, so
either the other's answer is still next or the response does not look at it (20_memory.md R46). -/
theorem response_of_exec_other_unit {i j : Instr} {s t : State} (hunit : i.unit ≠ j.unit)
    (h : exec i s = .next t) :
    Spec.response t.cfg (nextAnswer t) j = Spec.response s.cfg (nextAnswer s) j := by
  rw [exec_cfg h]
  cases hj : Spec.drawsKey j with
  | false => exact response_eq_of_not_draws hj ..
  | true =>
    have hi : Spec.drawsKey i = false :=
      Bool.eq_false_iff.2 fun hi => hunit ((unit_of_drawsKey hi).trans (unit_of_drawsKey hj).symm)
    rw [nextAnswer_of_exec hi h]

/-- The state after two transactions on different units: both responses as from the first state. -/
theorem exec_exec_eq {i j : Instr} {s t u : State} (hunit : i.unit ≠ j.unit)
    (hi : exec i s = .next t) (hj : exec j t = .next u) :
    u = finish (Spec.response s.cfg (nextAnswer s) j)
      (finish (Spec.response s.cfg (nextAnswer s) i) (keyTaken j (keyTaken i s))) := by
  rw [exec_next_eq hj, response_of_exec_other_unit hunit hi, exec_next_eq hi, keyTaken_finish]

/-- An instruction changes nothing that admission looks at. -/
theorem exec_goes_on_after {i j : Instr} {s t : State} (h : exec i s = .next t) :
    (∃ u, exec j t = .next u) ↔ ∃ v, exec j s = .next v := by
  rw [exec_goes_on_iff, exec_goes_on_iff, admitted_congr (exec_cfg h)]

/-- Settles O54: each order goes on when the other does, and both end in the state of `exec_exec_eq`, whose
parts commute. -/
theorem differentUnitsCommute : Obligations.DifferentUnitsCommute := by
  intro i j s t u hunit hi hj
  obtain ⟨v, hv⟩ := (exec_goes_on_after hi).1 ⟨u, hj⟩
  obtain ⟨w, hw⟩ := (exec_goes_on_after hv).2 ⟨t, hi⟩
  have hsame : w = u := by
    rw [exec_exec_eq hunit hi hj, exec_exec_eq hunit.symm hv hw, keyTaken_comm,
      finish_comm (by simpa using hunit)]
  exact ⟨v, hv, hsame ▸ hw⟩

end Sys2Proof.Machine
end

section
/-! SUPPORT. Encoding: the decoder inverts the encoder, records and their unit numbers, buffers and their form
rows, and the form an encoded frame has. Settles O1, O2, O3, O4, O6, O7, O32, O33 and O38. -/

namespace Sys2Proof.Machine

/-! ## The encoder and the decoder -/

/-- The request written for an instruction assembles to that instruction, whatever its operands are. -/
theorem assemble_encode (i : Instr) : assemble (encode i) = .ok i := by
  cases i with
  | frameMU tag len16 rest => exact congrArg Except.ok (decodeWire_frameBytesM tag false len16 rest)
  | frameMK tag len16 rest => exact congrArg Except.ok (decodeWire_frameBytesM tag true len16 rest)
  | frameLU tag len64 rest => exact congrArg Except.ok (decodeWire_frameBytesL tag false len64 rest)
  | frameLK tag len64 rest => exact congrArg Except.ok (decodeWire_frameBytesL tag true len64 rest)
  | frameSU tag len7 rest => exact congrArg Except.ok (decodeWire_frameBytesS tag false len7 rest)
  | frameSK tag len7 rest => exact congrArg Except.ok (decodeWire_frameBytesS tag true len7 rest)
  | encode payload opcode fin mask => rfl
  | decode frame => rfl
  | hdrenc fin opcode mask length => rfl
  | xormask key data => rfl

/-- Settles O1: the encoder's request assembles to the instruction, and the decoder checks only that it is
well-formed. -/
theorem decodeOfEncodeIsTheInstruction : Obligations.DecodeOfEncodeIsTheInstruction :=
  fun _ i hwf => decode_eq_ok_iff.2 ⟨assemble_encode i, hwf⟩

/-! ## What a request record says

One inversion per unit: a record that assembles has its unit's operands and no others. -/

theorem assembleEncode_eq_ok {r : RequestRecord} {i : Instr} (h : assembleEncode r = .ok i) :
    ∃ payload opcode fin mask, i = .encode payload opcode fin mask := by
  unfold assembleEncode at h
  split at h
  · cases h
  · split at h
    · cases h
      exact ⟨_, _, _, _, rfl⟩
    · cases h

theorem assembleDecode_eq_ok {r : RequestRecord} {i : Instr} (h : assembleDecode r = .ok i) :
    ∃ frame, r = { frame := some frame } ∧ i = .decode frame := by
  obtain ⟨payload, opcode, fin, mask, frame, length, key, data⟩ := r
  unfold assembleDecode at h
  split at h
  · cases h
  · rename_i hforeign
    split at h
    · cases h
      exact ⟨_, by simp_all, rfl⟩
    · cases h

theorem assembleHdrenc_eq_ok {r : RequestRecord} {i : Instr} (h : assembleHdrenc r = .ok i) :
    ∃ fin opcode mask length,
      r = { fin := some fin, opcode := some opcode, mask := some mask, length := some length } ∧
      i = .hdrenc fin opcode mask length := by
  obtain ⟨payload, opcode, fin, mask, frame, length, key, data⟩ := r
  unfold assembleHdrenc at h
  split at h
  · cases h
  · rename_i hforeign
    split at h
    · cases h
      exact ⟨_, _, _, _, by simp_all, rfl⟩
    · cases h

theorem assembleXormask_eq_ok {r : RequestRecord} {i : Instr} (h : assembleXormask r = .ok i) :
    ∃ key data, r = { key := some key, data := some data } ∧ i = .xormask key data := by
  obtain ⟨payload, opcode, fin, mask, frame, length, key, data⟩ := r
  unfold assembleXormask at h
  split at h
  · cases h
  · rename_i hforeign
    split at h
    · cases h
      exact ⟨_, _, by simp_all, rfl⟩
    · cases h

/-- The four values of a `UNIT` number. -/
theorem unitNumber_cases (u : BitVec 2) : u = 0 ∨ u = 1 ∨ u = 2 ∨ u = 3 := by
  revert u; decide

/-- A record sent to a unit assembles to an instruction of that unit (30_encoding.md R68). -/
theorem unit_of_assemble_call {u : BitVec 2} {r : RequestRecord} {i : Instr}
    (h : assemble (.call u r) = .ok i) : i.unit = unitOfNumber u := by
  rcases unitNumber_cases u with rfl | rfl | rfl | rfl
  · obtain ⟨_, _, _, _, rfl⟩ := assembleEncode_eq_ok h
    rfl
  · obtain ⟨_, -, rfl⟩ := assembleDecode_eq_ok h
    rfl
  · obtain ⟨_, _, _, _, -, rfl⟩ := assembleHdrenc_eq_ok h
    rfl
  · obtain ⟨_, _, -, rfl⟩ := assembleXormask_eq_ok h
    rfl

/-- Only FENC has optional operands: a record any other unit accepts is the one the encoder writes
(30_encoding.md R69, R70). -/
theorem encode_of_assemble_call {u : BitVec 2} {r : RequestRecord} {i : Instr} (hu : u ≠ 0)
    (h : assemble (.call u r) = .ok i) : encode i = .call u r := by
  rcases unitNumber_cases u with rfl | rfl | rfl | rfl
  · exact absurd rfl hu
  · obtain ⟨_, rfl, rfl⟩ := assembleDecode_eq_ok h
    rfl
  · obtain ⟨_, _, _, _, rfl, rfl⟩ := assembleHdrenc_eq_ok h
    rfl
  · obtain ⟨_, _, rfl, rfl⟩ := assembleXormask_eq_ok h
    rfl

/-- Settles O6: the shortened forms assemble with the defaults, and opcode 1 has its type because `OPW` is
at least 4. -/
theorem shortenedCallsExpandByTheDefaults : Obligations.ShortenedCallsExpandByTheDefaults := by
  intro opw hopw p o ho
  have hone : 1 < 2 ^ opw := Nat.one_lt_two_pow (by omega)
  refine ⟨?plain, ?masked, ?opcode, ?unfinished, ?others⟩
  case plain => exact decode_eq_ok_iff.2 ⟨rfl, if_pos hone⟩
  case masked => exact decode_eq_ok_iff.2 ⟨rfl, if_pos hone⟩
  case opcode => exact decode_eq_ok_iff.2 ⟨rfl, if_pos ho⟩
  case unfinished => exact decode_eq_ok_iff.2 ⟨rfl, if_pos hone⟩
  case others => exact fun u r i hu hdec => encode_of_assemble_call hu (decode_eq_ok_iff.1 hdec).1

/-- Settles O7: assembling a record keeps to its unit, and the record of zeros is accepted by every unit. -/
theorem unitNumberSelectsTheOperation : Obligations.UnitNumberSelectsTheOperation := by
  refine ⟨rfl, rfl, rfl, rfl, ?own, ?used⟩
  case own => exact fun opw u r i hdec => unit_of_assemble_call (decode_eq_ok_iff.1 hdec).1
  case used =>
    intro opw u
    obtain ⟨i, hi, hwf⟩ := assemble_zeroRecord u
    exact ⟨_, i, decode_eq_ok_iff.2 ⟨hi, hwf opw⟩⟩

/-- Settles O4: ten closed words, each decoded by evaluation. -/
theorem wordsOfTheSpecDecode : Obligations.WordsOfTheSpecDecode := by
  unfold Obligations.WordsOfTheSpecDecode
  decide

/-! ## Frame buffers and their forms -/

theorem encode_decodeWire_frameBytesS (t : FrameTag) (m : Bool) (l : Fin 126) (r : List Byte) :
    encode (decodeWire (frameBytesS t m l r)) = .wire (frameBytesS t m l r) := by
  rw [decodeWire_frameBytesS]
  cases m <;> rfl

theorem encode_decodeWire_frameBytesM (t : FrameTag) (m : Bool) (l : BitVec 16) (r : List Byte) :
    encode (decodeWire (frameBytesM t m l r)) = .wire (frameBytesM t m l r) := by
  rw [decodeWire_frameBytesM]
  cases m <;> rfl

theorem encode_decodeWire_frameBytesL (t : FrameTag) (m : Bool) (l : BitVec 64) (r : List Byte) :
    encode (decodeWire (frameBytesL t m l r)) = .wire (frameBytesL t m l r) := by
  rw [decodeWire_frameBytesL]
  cases m <;> rfl

/-- Settles O2: each buffer is the bytes of one frame form, or its header is not whole. -/
theorem wholeHeaderBufferIsItsOwnEncoding : Obligations.WholeHeaderBufferIsItsOwnEncoding := by
  intro frame
  rcases frame_cases frame with ⟨t, m, l, r, rfl⟩ | ⟨t, m, l, r, rfl⟩ | ⟨t, m, l, r, rfl⟩ | ⟨hp, hw⟩
  · exact ⟨fun _ => encode_decodeWire_frameBytesS t m l r, by simp [parseHeader_frameBytesS]⟩
  · exact ⟨fun _ => encode_decodeWire_frameBytesM t m l r, by simp [parseHeader_frameBytesM]⟩
  · exact ⟨fun _ => encode_decodeWire_frameBytesL t m l r, by simp [parseHeader_frameBytesL]⟩
  · exact ⟨fun hwhole => absurd hp hwhole, fun _ => hw⟩

/-- `DECODE` of a whole header is the frame form of its record, admission included. -/
theorem execDecode_of_parseHeader {frame : List Byte} {m : Meta} (h : parseHeader frame = some m)
    (s : State) : execDecode frame s = decodeForm m frame s := by
  rw [execDecode, decodeForm, h]

/-- Settles O38: each buffer is the bytes of one frame form, whose record the parser reads, or its header is
not whole and it stays a `DECODE`. -/
theorem decodeIsItsFrameForm : Obligations.DecodeIsItsFrameForm := by
  intro frame s
  rcases frame_cases frame with ⟨t, m, l, r, rfl⟩ | ⟨t, m, l, r, rfl⟩ | ⟨t, m, l, r, rfl⟩ | ⟨-, hw⟩
  · rw [decodeWire_frameBytesS]
    cases m <;> exact execDecode_of_parseHeader (parseHeader_frameBytesS ..) s
  · rw [decodeWire_frameBytesM]
    cases m <;> exact execDecode_of_parseHeader (parseHeader_frameBytesM ..) s
  · rw [decodeWire_frameBytesL]
    cases m <;> exact execDecode_of_parseHeader (parseHeader_frameBytesL ..) s
  · rw [hw]

/-! ## The form rows -/

/-- The row of form `S` with or without a key (30_encoding.md R55). -/
def rowS (mask : Bool) : FormRow :=
  if mask then ⟨"FRAME.S.K", 0x0080, 0x0080, 2, 6⟩ else ⟨"FRAME.S.U", 0x0000, 0x0080, 2, 2⟩

/-- The row of form `M` with or without a key (30_encoding.md R55). -/
def rowM (mask : Bool) : FormRow :=
  if mask then ⟨"FRAME.M.K", 0x00FE, 0x00FF, 4, 8⟩ else ⟨"FRAME.M.U", 0x007E, 0x00FF, 4, 4⟩

/-- The row of form `L` with or without a key (30_encoding.md R55). -/
def rowL (mask : Bool) : FormRow :=
  if mask then ⟨"FRAME.L.K", 0x00FF, 0x00FF, 10, 14⟩ else ⟨"FRAME.L.U", 0x007F, 0x00FF, 10, 10⟩

/-- The row that byte 1 alone selects: its `LEN7` gives the form, its `MASK` bit says whether there is a key
(30_encoding.md R54 to R56). -/
def rowOfByte1 (b1 : Byte) : FormRow :=
  if (len7Of b1).toNat < 126 then rowS (maskOf b1)
  else if (len7Of b1).toNat = 126 then rowM (maskOf b1)
  else rowL (maskOf b1)

/-- The first two bytes meet a row's match and mask, and in the `S` rows `LEN7 <= 125`. -/
abbrev RowHolds (w : BitVec 16) (row : FormRow) : Prop :=
  w &&& row.mask = row.pattern ∧ (row.headerLength = 2 → (w &&& 0x007F).toNat ≤ 125)

/-- A mask over byte 1 alone drops byte 0. -/
theorem append_and_of_low_mask (b0 b1 : Byte) {m : BitVec 16} (h : m = 0#8 ++ m.setWidth 8) :
    (b0 ++ b1) &&& m = (0#8 ++ b1) &&& m := by
  rw [h, BitVec.and_append, BitVec.and_append, BitVec.and_zero, BitVec.and_zero]

/-- No row looks at byte 0. -/
theorem mask_is_low {row : FormRow} (h : row ∈ formRows) : row.mask = 0#8 ++ row.mask.setWidth 8 := by
  revert row; decide

theorem and_mask_eq (b0 b1 : Byte) {row : FormRow} (h : row ∈ formRows) :
    (b0 ++ b1) &&& row.mask = (0#8 ++ b1) &&& row.mask :=
  append_and_of_low_mask b0 b1 (mask_is_low h)

/-- The first row that matches is the row byte 1 selects. -/
theorem formRowOf_append (b0 b1 : Byte) : formRowOf (b0 ++ b1) = some (rowOfByte1 b1) := by
  have hbyte1 : ∀ b1 : Byte, formRowOf (0#8 ++ b1) = some (rowOfByte1 b1) := by decide
  rw [← hbyte1]
  exact List.find?_congr fun row hrow => by rw [and_mask_eq b0 b1 hrow]

/-- Among the rows, the one byte 1 selects is exactly the one that holds. -/
theorem rowHolds_iff (b0 b1 : Byte) {row : FormRow} (h : row ∈ formRows) :
    RowHolds (b0 ++ b1) row ↔ row = rowOfByte1 b1 := by
  have hbyte1 : ∀ b1 : Byte, ∀ row ∈ formRows, RowHolds (0#8 ++ b1) row ↔ row = rowOfByte1 b1 := by
    decide
  rw [← hbyte1 b1 row h, RowHolds, and_mask_eq b0 b1 h, append_and_of_low_mask b0 b1 (by decide)]

theorem rowOfByte1_mem (b1 : Byte) : rowOfByte1 b1 ∈ formRows :=
  List.mem_of_find?_eq_some (formRowOf_append 0 b1)

/-- A 16-bit value is its two bytes. -/
theorem exists_bytes (w : BitVec 16) : ∃ b0 b1 : Byte, w = b0 ++ b1 :=
  ⟨w.extractLsb' 8 8, w.extractLsb' 0 8, by
    rw [BitVec.extractLsb'_append_extractLsb'_eq_extractLsb' (by omega), BitVec.extractLsb'_eq_self]⟩

/-- On a whole header the row that byte 1 selects is the decoded instruction's, and its columns are the
record's (30_encoding.md R55, R56). -/
theorem rowOfByte1_of_parseHeader {b0 b1 : Byte} {rest : List Byte} {m : Meta}
    (h : parseHeader (b0 :: b1 :: rest) = some m) :
    (rowOfByte1 b1).mnemonic = (decodeWire (b0 :: b1 :: rest)).mnemonic ∧
    (rowOfByte1 b1).headerLength = m.headerLength ∧ (rowOfByte1 b1).payloadOffset = m.payloadOffset := by
  rcases frame_cases (b0 :: b1 :: rest) with
    ⟨t, k, l, r, hf⟩ | ⟨t, k, l, r, hf⟩ | ⟨t, k, l, r, hf⟩ | ⟨hp, -⟩
  · have hrow : rowOfByte1 (byte1 k (len7Field l)) = rowS k := by
      simp [rowOfByte1, len7Field_toNat]
    obtain ⟨-, rfl, -⟩ : b0 = byte0 t ∧ b1 = byte1 k (len7Field l) ∧ rest = r := by
      simpa [frameBytesS] using hf
    rw [hf, parseHeader_frameBytesS] at h
    cases h
    rw [hf, decodeWire_frameBytesS, hrow]
    cases k <;> exact ⟨rfl, rfl, rfl⟩
  · have hrow : rowOfByte1 (byte1 k 126) = rowM k := by
      simp [rowOfByte1]
    obtain ⟨-, rfl, -⟩ : b0 = byte0 t ∧ b1 = byte1 k 126 ∧ rest = be16 l ++ r := by
      simpa [frameBytesM] using hf
    rw [hf, parseHeader_frameBytesM] at h
    cases h
    rw [hf, decodeWire_frameBytesM, hrow]
    cases k <;> exact ⟨rfl, rfl, rfl⟩
  · have hrow : rowOfByte1 (byte1 k 127) = rowL k := by
      simp [rowOfByte1]
    obtain ⟨-, rfl, -⟩ : b0 = byte0 t ∧ b1 = byte1 k 127 ∧ rest = be64 l ++ r := by
      simpa [frameBytesL] using hf
    rw [hf, parseHeader_frameBytesL] at h
    cases h
    rw [hf, decodeWire_frameBytesL, hrow]
    cases k <;> exact ⟨rfl, rfl, rfl⟩
  · rw [hp] at h
    cases h

/-- Settles O3: byte 1 selects the row, which is the only one that holds and the first that matches. -/
theorem formRowsPartitionTheFirstTwoBytes : Obligations.FormRowsPartitionTheFirstTwoBytes := by
  constructor
  · intro w
    obtain ⟨b0, b1, rfl⟩ := exists_bytes w
    have hmem := rowOfByte1_mem b1
    obtain ⟨hmatch, hlen7⟩ := (rowHolds_iff b0 b1 hmem).2 rfl
    exact ⟨rowOfByte1 b1, ⟨hmem, hmatch, hlen7⟩, formRowOf_append b0 b1,
      fun row' hmem' hmatch' hlen7' => (rowHolds_iff b0 b1 hmem').1 ⟨hmatch', hlen7'⟩⟩
  · intro b0 b1 rest m h
    exact ⟨_, formRowOf_append b0 b1, rowOfByte1_of_parseHeader h⟩

/-! ## The opcode operand -/

/-- The `OPCODE` field holds the operand modulo 16 (30_encoding.md R59). -/
theorem encodedTag_mod (fin : Bool) (opcode : Nat) :
    Spec.encodedTag fin (opcode % 16) = Spec.encodedTag fin opcode := by
  have h : BitVec.ofNat 4 (opcode % 16) = BitVec.ofNat 4 opcode := by
    apply BitVec.eq_of_toNat_eq
    simp
  rw [Spec.encodedTag, h, Spec.encodedTag]

theorem hdrEnc_mod (fin : Bool) (opcode : Nat) (mask : Bool) (n : Nat) :
    hdrEnc fin (opcode % 16) mask n = hdrEnc fin opcode mask n := by
  simp only [hdrEnc, encodedByte0_eq, encodedTag_mod]

theorem exec_encode_mod (payload : List Byte) (opcode : Nat) (fin mask : Bool) (s : State) :
    exec (.encode payload (opcode % 16) fin mask) s = exec (.encode payload opcode fin mask) s := by
  simp only [exec, execEncode, encodeAdmitted, hdrEnc_mod]

theorem exec_hdrenc_mod (fin : Bool) (opcode : Nat) (mask : Bool) (length : Nat) (s : State) :
    exec (.hdrenc fin (opcode % 16) mask length) s = exec (.hdrenc fin opcode mask length) s := by
  simp only [exec, execHdrenc, hdrEnc_mod]

/-- A header begins with byte 0, whichever form it has. -/
theorem header_eq_cons (fin : Bool) (opcode : Nat) (mask : Bool) (n : Nat) :
    ∃ rest, Spec.header fin opcode mask n = Spec.firstByte fin opcode :: rest := by
  unfold Spec.header
  split <;> [exact ⟨_, rfl⟩; split <;> exact ⟨_, rfl⟩]

/-- Byte 0 as a number: nothing of the operand above bit 3 is in it (30_encoding.md R59, R60). -/
theorem firstByte_toNat (fin : Bool) (opcode : Nat) :
    (Spec.firstByte fin opcode).toNat = (if fin then 128 else 0) + opcode % 16 := by
  rw [Spec.firstByte, BitVec.toNat_ofNat]
  apply Nat.mod_eq_of_lt
  split <;> omega

/-- A frame put out is its header and, after it, the key of a masked frame and the payload's bytes. -/
theorem encodeAnswer_eq_ok {a : RngAnswer} {payload f : List Byte} {opcode : Nat} {fin mask : Bool}
    (h : Spec.encodeAnswer a payload opcode fin mask = .ok f) :
    ∃ body, f = Spec.header fin opcode mask payload.length ++ body ∧
      body.length = (if mask then 4 else 0) + payload.length := by
  cases mask with
  | false =>
    cases h
    exact ⟨payload, rfl, by simp⟩
  | true =>
    cases a with
    | ok k =>
      cases h
      exact ⟨keyBytes k ++ Spec.masked (keyBytes k) payload, by simp, by simp⟩
    | short n => cases h
    | unavailable => cases h

/-- The frame an `ENCODE` puts out is a header with the bytes that belong to it. -/
theorem frame_of_exec_encode {payload f : List Byte} {opcode : Nat} {fin mask : Bool} {s t : State}
    (h : exec (.encode payload opcode fin mask) s = .next t) (hf : t.fencOut = s.fencOut ++ [.ok f]) :
    ∃ body, f = Spec.header fin opcode mask payload.length ++ body ∧
      body.length = (if mask then 4 else 0) + payload.length := by
  rw [exec_next_eq h] at hf
  exact encodeAnswer_eq_ok (a := nextAnswer s) (by simpa [Spec.response] using hf)

/-- Settles O32: the header is the same for the operand modulo 16, and its first byte is a number below 16
plus 128 when `fin`. -/
theorem opcodeCountsModulo16 : Obligations.OpcodeCountsModulo16 := by
  intro payload opcode fin mask length s
  refine ⟨(exec_encode_mod ..).symm, (exec_hdrenc_mod ..).symm, ?hdrenc, ?encode⟩
  case hdrenc =>
    intro hfit
    obtain ⟨rest, hrest⟩ := header_eq_cons fin opcode mask length
    exact ⟨_, rest, hrest ▸ exec_admitted (i := .hdrenc fin opcode mask length) hfit,
      firstByte_toNat fin opcode⟩
  case encode =>
    intro t f h hf
    obtain ⟨body, rfl, -⟩ := frame_of_exec_encode h hf
    obtain ⟨rest, hrest⟩ := header_eq_cons fin opcode mask payload.length
    exact ⟨_, rest ++ body, by rw [hrest]; rfl, firstByte_toNat fin opcode⟩

/-! ## The form of an encoded frame -/

/-! What the decoder reads from an encoded header with `body` after it (30_encoding.md R58). -/

theorem decodeWire_header_short (fin : Bool) (opcode : Nat) (mask : Bool) {n : Nat} (h : n ≤ 125)
    (body : List Byte) :
    decodeWire (Spec.header fin opcode mask n ++ body) =
      if mask then .frameSK (Spec.encodedTag fin opcode) ⟨n, by omega⟩ body
      else .frameSU (Spec.encodedTag fin opcode) ⟨n, by omega⟩ body := by
  rw [← hdrEnc_eq_header fin opcode mask (by omega), hdrEnc_short fin opcode mask h]
  exact decodeWire_frameBytesS ..

theorem decodeWire_header_medium (fin : Bool) (opcode : Nat) (mask : Bool) {n : Nat} (h : 125 < n)
    (h' : n ≤ 65535) (body : List Byte) :
    decodeWire (Spec.header fin opcode mask n ++ body) =
      if mask then .frameMK (Spec.encodedTag fin opcode) (BitVec.ofNat 16 n) body
      else .frameMU (Spec.encodedTag fin opcode) (BitVec.ofNat 16 n) body := by
  rw [← hdrEnc_eq_header fin opcode mask (by omega), hdrEnc_medium fin opcode mask h h']
  exact decodeWire_frameBytesM ..

theorem decodeWire_header_long (fin : Bool) (opcode : Nat) (mask : Bool) {n : Nat} (h : 65535 < n)
    (h' : n < 2 ^ 64) (body : List Byte) :
    decodeWire (Spec.header fin opcode mask n ++ body) =
      if mask then .frameLK (Spec.encodedTag fin opcode) (BitVec.ofNat 64 n) body
      else .frameLU (Spec.encodedTag fin opcode) (BitVec.ofNat 64 n) body := by
  rw [← hdrEnc_eq_header fin opcode mask h', hdrEnc_long fin opcode mask h]
  exact decodeWire_frameBytesL ..

/-- Settles O33: the frame is the shortest header that holds the length and its bytes, and each length form
decodes as itself. -/
theorem encodeEmitsTheShortestForm : Obligations.EncodeEmitsTheShortestForm := by
  intro payload opcode fin mask s t f h hf
  have hlt : payload.length < 2 ^ 64 := lmax_lt (exec_next h).1
  obtain ⟨body, rfl, hbody⟩ := frame_of_exec_encode h hf
  refine ⟨body, ?short, ?medium, ?long, hbody⟩
  case short => exact fun hn => decodeWire_header_short fin opcode mask hn body
  case medium =>
    intro hn hn'
    exact ⟨BitVec.ofNat 16 payload.length, Nat.mod_eq_of_lt (by omega),
      decodeWire_header_medium fin opcode mask hn hn' body⟩
  case long =>
    intro hn
    exact ⟨BitVec.ofNat 64 payload.length, Nat.mod_eq_of_lt hlt,
      decodeWire_header_long fin opcode mask hn hlt body⟩

end Sys2Proof.Machine
end

section
/-! SUPPORT. HDRENC: its one response, the length of a header, the bit that `mask` sets, and that a header
tells its fields. Settles O15, O16, O17, O18, O19, O20 and O34. -/

namespace Sys2Proof.Machine

/-! ## The response -/

/-- An admitted `HDRENC` puts out its header and keeps the rest of the state (40_header_encoder.md R73). -/
theorem exec_hdrenc_of_fits {length : Nat} {s : State} (fin : Bool) (opcode : Nat) (mask : Bool)
    (h : Spec.FitsLength s length) :
    exec (.hdrenc fin opcode mask length) s =
      .next { s with
        vlhePhase := .idle
        vlheOut := s.vlheOut ++ [.ok (Spec.header fin opcode mask length)] } :=
  exec_admitted (i := .hdrenc fin opcode mask length) h

/-- The refusal by name of a length above `LMAX` (40_header_encoder.md R72). -/
theorem exec_hdrenc_of_above {length : Nat} {s : State} (fin : Bool) (opcode : Nat) (mask : Bool)
    (h : s.cfg.lmax.val < length) :
    exec (.hdrenc fin opcode mask length) s = .refused .lengthAboveLmax :=
  if_neg fun hadmits => absurd (admitsLength_iff.1 hadmits) (Nat.not_le.2 h)

/-- Settles O15: it is the response of an admitted instruction, with `finish` written out. -/
theorem hdrencResult : Obligations.HdrencResult :=
  fun fin opcode mask _ _ hfit => exec_hdrenc_of_fits fin opcode mask hfit

/-- Settles O16: `LMAX` is below 2^64 by its type, and decides between the response and the refusal. -/
theorem hdrencAdmission : Obligations.HdrencAdmission :=
  fun fin opcode mask _ _ =>
    ⟨fun hfit => ⟨Nat.le_pred_of_lt (lmax_lt hfit), _, exec_hdrenc_of_fits fin opcode mask hfit⟩,
      exec_hdrenc_of_above fin opcode mask⟩

/-! ## The bytes of a header -/

/-- A header's length is the shortest form's, by the payload length alone (40_header_encoder.md R75). -/
theorem header_length (fin : Bool) (opcode : Nat) (mask : Bool) {n : Nat} (h : n < 2 ^ 64) :
    (Spec.header fin opcode mask n).length = shortestHeader n := by
  rw [← hdrEnc_eq_header fin opcode mask h, hdrEnc_length]

/-- Settles O17: the header's length is `shortestHeader`'s, branch by branch. -/
theorem hdrencHeaderLength : Obligations.HdrencHeaderLength := by
  intro fin opcode mask length s hfit
  refine ⟨_, exec_hdrenc_of_fits fin opcode mask hfit, ?_⟩
  rw [header_length fin opcode mask (lmax_lt hfit), shortestHeader]
  refine ⟨?short, ?medium, ?long⟩
  case short => exact fun hn => if_pos hn
  case medium => exact fun hn hn' => (if_neg (by omega)).trans (if_pos hn')
  case long => exact fun hn => (if_neg (by omega)).trans (if_neg (by omega))

/-- Byte 0 holds the tag of an encoded frame and nothing else (30_encoding.md R60). -/
theorem tagOf_firstByte (fin : Bool) (opcode : Nat) :
    tagOf (Spec.firstByte fin opcode) = Spec.encodedTag fin opcode := by
  rw [firstByte_eq, tagOf_byte0]

/-- The reserved bits of byte 0 are 0 (40_header_encoder.md R74). -/
theorem firstByte_reserved (fin : Bool) (opcode : Nat) :
    (Spec.firstByte fin opcode).getLsbD 6 = false ∧ (Spec.firstByte fin opcode).getLsbD 5 = false ∧
    (Spec.firstByte fin opcode).getLsbD 4 = false := by
  have htag := tagOf_firstByte fin opcode
  exact ⟨congrArg FrameTag.rsv1 htag, congrArg FrameTag.rsv2 htag, congrArg FrameTag.rsv3 htag⟩

/-- Settles O18: a header, alone or before the rest of a frame, begins with byte 0. -/
theorem encodersLeaveReservedBitsClear : Obligations.EncodersLeaveReservedBitsClear := by
  constructor
  · intro fin opcode mask length s hfit
    obtain ⟨rest, hrest⟩ := header_eq_cons fin opcode mask length
    exact ⟨_, rest, hrest ▸ exec_hdrenc_of_fits fin opcode mask hfit, firstByte_reserved fin opcode⟩
  · intro payload opcode fin mask s t f h hf
    obtain ⟨body, rfl, -⟩ := frame_of_exec_encode h hf
    obtain ⟨rest, hrest⟩ := header_eq_cons fin opcode mask payload.length
    exact ⟨_, rest ++ body, by rw [hrest]; rfl, firstByte_reserved fin opcode⟩

/-- `mask` reaches byte 1 alone: its `LEN7` and the bytes after it are the payload length's
(40_header_encoder.md R73, R76). -/
theorem header_eq_cons_cons (fin : Bool) (opcode n : Nat) :
    ∃ len7 rest, len7 < 128 ∧ ∀ mask,
      Spec.header fin opcode mask n = Spec.firstByte fin opcode :: Spec.secondByte mask len7 :: rest := by
  unfold Spec.header
  split
  · exact ⟨n, _, by omega, fun _ => rfl⟩
  · split
    · exact ⟨126, _, by omega, fun _ => rfl⟩
    · exact ⟨127, _, by omega, fun _ => rfl⟩

/-- Bit 7 of byte 1 is the mask bit (30_encoding.md R53). -/
theorem secondByte_getLsbD_seven (mask : Bool) {n : Nat} (h : n < 128) :
    (Spec.secondByte mask n).getLsbD 7 = mask := by
  rw [secondByte_eq mask h]
  exact maskOf_byte1 ..

/-- Setting the mask bit is all that `mask` does to byte 1. -/
theorem secondByte_true {n : Nat} (h : n < 128) :
    Spec.secondByte true n = Spec.secondByte false n ||| 0x80 := by
  have hbyte1 : ∀ len7 : BitVec 7, byte1 true len7 = byte1 false len7 ||| 0x80 := by decide
  rw [secondByte_eq true h, secondByte_eq false h, hbyte1]

/-- Settles O19: the two headers share every byte but the second, where `mask` sets bit 7. -/
theorem hdrencMaskSetsOneBit : Obligations.HdrencMaskSetsOneBit := by
  intro fin opcode length s hfit
  obtain ⟨len7, rest, hlen7, hheader⟩ := header_eq_cons_cons fin opcode length
  refine ⟨Spec.firstByte fin opcode, Spec.secondByte false len7, rest,
    secondByte_getLsbD_seven false hlen7, ?unmasked, ?masked⟩
  case unmasked => rw [exec_hdrenc_of_fits fin opcode false hfit, hheader]
  case masked => rw [exec_hdrenc_of_fits fin opcode true hfit, hheader, secondByte_true hlen7]

/-! ## A header tells its fields -/

/-- The tag of an encoded frame tells `fin` and the opcode modulo 16 (30_encoding.md R59). -/
theorem encodedTag_inj {fin fin' : Bool} {opcode opcode' : Nat}
    (h : Spec.encodedTag fin opcode = Spec.encodedTag fin' opcode') :
    fin = fin' ∧ opcode % 16 = opcode' % 16 := by
  have hopcode := congrArg (fun t => t.opcode.toNat) h
  exact ⟨congrArg FrameTag.fin h, by simpa [Spec.encodedTag] using hopcode⟩

/-- Equal headers parse to one record, which holds every field they encode (40_header_encoder.md R79). -/
theorem header_inj {fin fin' : Bool} {opcode opcode' : Nat} {mask mask' : Bool} {n n' : Nat}
    (hn : n < 2 ^ 64) (hn' : n' < 2 ^ 64)
    (h : Spec.header fin opcode mask n = Spec.header fin' opcode' mask' n') :
    fin = fin' ∧ opcode % 16 = opcode' % 16 ∧ mask = mask' ∧ n = n' := by
  have hparse := parseHeader_hdrEnc_append fin opcode mask n []
  rw [hdrEnc_eq_header fin opcode mask hn, h, ← hdrEnc_eq_header fin' opcode' mask' hn',
    parseHeader_hdrEnc_append] at hparse
  have hmeta := (Option.some.inj hparse).symm
  have htag := congrArg (fun m : Meta => FrameTag.mk m.fin m.rsv1 m.rsv2 m.rsv3 m.opcode) hmeta
  have hlength := congrArg (fun m : Meta => m.length.toNat) hmeta
  simp only [metaOf, BitVec.toNat_ofNat, Nat.mod_eq_of_lt hn, Nat.mod_eq_of_lt hn'] at hlength
  obtain ⟨hfin, hopcode⟩ := encodedTag_inj htag
  exact ⟨hfin, hopcode, congrArg Meta.hasMask hmeta, hlength⟩

/-- An `HDRENC` that goes on was admitted, and its header is VLHE's newest response. -/
theorem hdrenc_next {fin : Bool} {opcode : Nat} {mask : Bool} {length : Nat} {s t : State}
    (h : exec (.hdrenc fin opcode mask length) s = .next t) :
    Spec.FitsLength s length ∧
      t.vlheOut = s.vlheOut ++ [.ok (Spec.header fin opcode mask length)] := by
  obtain ⟨hfit, rfl⟩ := exec_next h
  exact ⟨hfit, rfl⟩

/-- Settles O20: a state tells the header last put out, and the header its fields. -/
theorem hdrencIsInjective : Obligations.HdrencIsInjective := by
  constructor
  · intro fin opcode mask length s hfit
    refine ⟨_, exec_hdrenc_of_fits fin opcode mask hfit, fun h hexec => ?_⟩
    obtain ⟨-, hout⟩ := hdrenc_next hexec
    simpa using hout
  · intro fin fin' opcode opcode' mask mask' length length' s t h h'
    obtain ⟨hfit, hout⟩ := hdrenc_next h
    obtain ⟨hfit', hout'⟩ := hdrenc_next h'
    have hheader : Spec.header fin opcode mask length = Spec.header fin' opcode' mask' length' := by
      simpa using hout.symm.trans hout'
    exact header_inj (lmax_lt hfit) (lmax_lt hfit') hheader

/-! ## `ENCODE` by the inner units -/

/-- Settles O34: the three responses are those of admitted instructions, and `ENCODE`'s with a key is
written from the other two's header and data. -/
theorem maskedEncodeIsHeaderKeyAndMaskedData : Obligations.MaskedEncodeIsHeaderKeyAndMaskedData := by
  intro payload opcode fin s k hfit hkey
  refine ⟨_, Spec.masked (keyBytes k) payload, _, exec_hdrenc_of_fits fin opcode true hfit, ?xormask,
    exec_admitted (i := .encode payload opcode fin true) hfit, ?encode⟩
  case xormask => exact exec_admitted (i := .xormask (keyBytes k) payload) ⟨keyBytes_length k, hfit⟩
  case encode => simp [Spec.response, Spec.encodeAnswer, Spec.drawsKey, hkey]

end Sys2Proof.Machine
end

section
/-! SUPPORT. XORMASK: its one response and its two refusals, and the laws of the masking function, each from
the key byte at a data byte's index. Settles O21, O22, O23 and O24. -/

namespace Sys2Proof.Machine

/-! ## The response and the refusals -/

/-- An admitted `XORMASK` puts out the masked data and keeps the rest of the state (41_xor_masking.md R80). -/
theorem exec_xormask_of_fits {key data : List Byte} {s : State} (hkey : key.length = 4)
    (hfit : Spec.FitsLength s data.length) :
    exec (.xormask key data) s =
      .next { s with xmePhase := .idle, xmeOut := s.xmeOut ++ [.ok (Spec.masked key data)] } :=
  exec_admitted (i := .xormask key data) ⟨hkey, hfit⟩

/-- The refusal by name of a key that is not 4 bytes (41_xor_masking.md R80). -/
theorem exec_xormask_of_bad_key {key : List Byte} (hkey : key.length ≠ 4) (data : List Byte) (s : State) :
    exec (.xormask key data) s = .refused .keyNotFourBytes := by
  simp only [exec, execXormask, keyOfBytes_eq_none hkey]

/-- The refusal by name of data above `LMAX` (41_xor_masking.md R80). -/
theorem exec_xormask_of_above {key data : List Byte} {s : State} (hkey : key.length = 4)
    (h : s.cfg.lmax.val < data.length) :
    exec (.xormask key data) s = .refused .dataAboveLmax := by
  obtain ⟨k, hk, -⟩ := keyOfBytes_of_length hkey
  simp only [exec, execXormask, hk]
  exact if_neg fun hadmits => absurd (admitsLength_iff.1 hadmits) (Nat.not_le.2 h)

/-- Byte `i` of masked data is data byte `i` XOR key byte `i mod 4`. -/
theorem masked_getD (key : List Byte) {data : List Byte} {i : Nat} (h : i < data.length) :
    (Spec.masked key data).getD i 0 = data.getD i 0 ^^^ key.getD (i % 4) 0 := by
  simp [Spec.masked, List.getD_eq_getElem?_getD, h]

/-- Settles O21: the response of an admitted request read byte by byte, and the two refusals. -/
theorem xormaskResult : Obligations.XormaskResult := by
  refine ⟨?result, ?key, ?data⟩
  case result =>
    intro k0 k1 k2 k3 data s hfit
    exact ⟨_, exec_xormask_of_fits rfl hfit, masked_length _ data, fun _ hi => masked_getD _ hi⟩
  case key => exact fun _ data s hkey => exec_xormask_of_bad_key hkey data s
  case data => exact fun _ _ _ hkey h => exec_xormask_of_above hkey h

/-! ## Involution -/

/-- The involution of the function (41_xor_masking.md R82), with the key as the request gives it. -/
theorem masked_masked {key : List Byte} (hkey : key.length = 4) (data : List Byte) :
    Spec.masked key (Spec.masked key data) = data := by
  obtain ⟨k, -, rfl⟩ := keyOfBytes_of_length hkey
  rw [← xorMask_eq_masked, ← xorMask_eq_masked, xorMask_xorMask]

/-- Masked data, as long as the data and so admitted in its turn, masks to the data (41_xor_masking.md R82). -/
theorem exec_xormask_masked {key data : List Byte} {s : State} (hkey : key.length = 4)
    (hfit : Spec.FitsLength s data.length) :
    exec (.xormask key (Spec.masked key data)) s =
      .next { s with xmePhase := .idle, xmeOut := s.xmeOut ++ [.ok data] } := by
  rw [exec_xormask_of_fits hkey ((masked_length key data).trans_le hfit), masked_masked hkey]

/-- Settles O22: the first `XORMASK` leaves XME `IDLE` and `LMAX` as it was, so the second changes the
responses alone. -/
theorem xormaskIsAnInvolution : Obligations.XormaskIsAnInvolution := by
  refine ⟨xorMask_xorMask, fun key data s hkey hfit => ?_⟩
  exact ⟨_, _, exec_xormask_of_fits hkey hfit, rfl, exec_xormask_masked hkey hfit⟩

/-! ## Laws of the masking function -/

/-- A key byte is told by the entry of the key at its index modulo 4 (41_xor_masking.md R81). -/
theorem keyByte_congr {k k' : Key} {i j : Nat} (h : (keyBytes k)[i % 4]? = (keyBytes k')[j % 4]?) :
    keyByte k i = keyByte k' j := by
  rw [keyByte_eq_getD, keyByte_eq_getD, List.getD_eq_getElem?_getD, List.getD_eq_getElem?_getD, h]

theorem keyByte_zero (i : Nat) : keyByte ⟨0, 0, 0, 0⟩ i = 0 := by
  unfold keyByte
  split <;> rfl

/-- The zero key changes nothing (41_xor_masking.md R83). -/
theorem xorMask_zero (data : List Byte) : xorMask ⟨0, 0, 0, 0⟩ data = data := by
  apply List.ext_getElem?
  intro i
  rw [xorMask_getElem?, keyByte_zero]
  simp

/-- The split law: `b` is masked by any key whose bytes go on where `a` ended (41_xor_masking.md R83). -/
theorem xorMask_append {k k' : Key} {a : List Byte} (b : List Byte)
    (h : ∀ n, keyByte k (a.length + n) = keyByte k' n) :
    xorMask k (a ++ b) = xorMask k a ++ xorMask k' b := by
  have hb : xorMaskFrom k (0 + a.length) b = xorMaskFrom k' 0 b :=
    xorMaskFrom_congr b fun n => by rw [Nat.zero_add, Nat.zero_add, h]
  rw [xorMask, xorMaskFrom_append, hb, ← xorMask, ← xorMask]

/-- The key rotated left by `r` has at index `n` the byte that the key has `r` further on. -/
theorem keyByte_rotated {k k' : Key} {r : Nat}
    (h : ∀ j, j < 4 → (keyBytes k')[j]? = (keyBytes k)[(j + r % 4) % 4]?) (n : Nat) :
    keyByte k (r + n) = keyByte k' n := by
  have hindex : (n % 4 + r % 4) % 4 = (r + n) % 4 := by omega
  apply keyByte_congr
  rw [h (n % 4) (Nat.mod_lt n (by decide)), hindex]

/-- After a multiple of 4 bytes the same key goes on (41_xor_masking.md R83). -/
theorem xorMask_append_of_aligned (k : Key) {a : List Byte} (b : List Byte) (ha : a.length % 4 = 0) :
    xorMask k (a ++ b) = xorMask k a ++ xorMask k b := by
  refine xorMask_append b fun n => keyByte_congr ?_
  have hindex : (a.length + n) % 4 = n % 4 := by omega
  rw [hindex]

/-- Settles O23: each law from the key byte at a data byte's index. -/
theorem xormaskLaws : Obligations.XormaskLaws := by
  refine ⟨xorMask_length, xorMask_zero, ?locality, ?split, ?aligned⟩
  case locality =>
    intro k k' data data' i hdata hkey
    rw [xorMask_getElem?, xorMask_getElem?, hdata, keyByte_congr hkey]
  case split => exact fun _ _ _ b hrotated => xorMask_append b (keyByte_rotated hrotated)
  case aligned => exact fun k _ b ha => xorMask_append_of_aligned k b ha

/-- Settles O24, by induction on the chunks: each is aligned, so the same key goes on after it. -/
theorem xormaskByChunks : Obligations.XormaskByChunks := by
  intro k chunks tail haligned
  induction chunks with
  | nil => simp
  | cons c chunks ih =>
    obtain ⟨hc, hchunks⟩ := List.forall_mem_cons.1 haligned
    calc xorMask k ((c :: chunks).flatten ++ tail)
        = xorMask k (c ++ (chunks.flatten ++ tail)) := by rw [List.flatten_cons, List.append_assoc]
      _ = xorMask k c ++ xorMask k (chunks.flatten ++ tail) := xorMask_append_of_aligned k _ hc
      _ = ((c :: chunks).map (xorMask k)).flatten ++ xorMask k tail := by
        rw [ih hchunks, List.map_cons, List.flatten_cons, List.append_assoc]

end Sys2Proof.Machine
end

section
/-! SUPPORT. ENCODE: the three ways it ends and its refusal, what its answer depends on, and where the parts
of its frame stand. Settles O25, O26, O27, O28, O29 and O31. -/

namespace Sys2Proof.Machine

/-! ## The random source -/

/-- The oldest answer put up is the next one (10_state.md R31). -/
theorem nextAnswer_of_rngAnswers {s : State} {a : RngAnswer} {later : List RngAnswer}
    (h : s.rngAnswers = a :: later) : nextAnswer s = a := by
  rw [nextAnswer, h]

/-- Every answer but a 4-byte key, a short one included, delivers no key (10_state.md R31). -/
theorem keyDelivered_eq_none_iff {a : RngAnswer} : keyDelivered a = none ↔ ∀ k, a ≠ .ok k := by
  cases a <;> simp [keyDelivered]

theorem afterRequest_of_key {s : State} {k : Key} (h : nextAnswer s = .ok k) :
    afterRequest s = { s with
      rngAnswers := s.rngAnswers.tail
      rngRequests := s.rngRequests + 1
      rngBytes := s.rngBytes + 4 } := by
  simp [afterRequest, h, keyDelivered]

theorem afterRequest_of_no_key {s : State} (h : ∀ k, nextAnswer s ≠ .ok k) :
    afterRequest s = { s with
      rngAnswers := s.rngAnswers.tail
      rngRequests := s.rngRequests + 1 } := by
  simp [afterRequest, keyDelivered_eq_none_iff.2 h]

/-! ## The answer, case by case -/

/-- The error is the answer without a key and never another (42_frame_encoder.md R93). -/
theorem encodeAnswer_eq_unavailable_iff {a : RngAnswer} {payload : List Byte} {opcode : Nat}
    {fin mask : Bool} :
    Spec.encodeAnswer a payload opcode fin mask = .randomnessUnavailable ↔
      mask = true ∧ ∀ k, a ≠ .ok k := by
  cases mask with
  | false => simp [Spec.encodeAnswer]
  | true => cases a <;> simp [Spec.encodeAnswer]

/-- A masked frame is header, key and masked payload (42_frame_encoder.md R90). -/
theorem encodeAnswer_masked_eq_ok_iff {a : RngAnswer} {payload f : List Byte} {opcode : Nat} {fin : Bool} :
    Spec.encodeAnswer a payload opcode fin true = .ok f ↔
      ∃ k, a = .ok k ∧ f = Spec.header fin opcode true payload.length ++
        keyBytes k ++ Spec.masked (keyBytes k) payload := by
  cases a <;> simp [Spec.encodeAnswer, eq_comm]

/-- An unmasked frame is header and raw payload (42_frame_encoder.md R90). -/
theorem encodeAnswer_unmasked_eq_ok_iff {a : RngAnswer} {payload f : List Byte} {opcode : Nat} {fin : Bool} :
    Spec.encodeAnswer a payload opcode fin false = .ok f ↔
      f = Spec.header fin opcode false payload.length ++ payload := by
  simp [Spec.encodeAnswer, eq_comm]

/-- The source's answer counts only when `mask` asks for it (42_frame_encoder.md R92). -/
theorem encodeAnswer_congr {a a' : RngAnswer} {mask : Bool} (h : mask = true → a = a')
    (payload : List Byte) (opcode : Nat) (fin : Bool) :
    Spec.encodeAnswer a payload opcode fin mask = Spec.encodeAnswer a' payload opcode fin mask := by
  cases mask with
  | false => rfl
  | true => rw [h rfl]

/-! ## The operation -/

/-- An admitted `ENCODE` ends with its answer, from the state in which its key is taken. -/
theorem exec_encode_of_fits {payload : List Byte} {s : State} (opcode : Nat) (fin mask : Bool)
    (h : Spec.FitsLength s payload.length) :
    exec (.encode payload opcode fin mask) s =
      .next (finish (.encode (Spec.encodeAnswer (nextAnswer s) payload opcode fin mask))
        (if mask then afterRequest s else s)) :=
  exec_admitted (i := .encode payload opcode fin mask) h

/-- The refusal by name of a payload above `LMAX` (42_frame_encoder.md R89). -/
theorem exec_encode_of_above {payload : List Byte} {s : State} (opcode : Nat) (fin mask : Bool)
    (h : s.cfg.lmax.val < payload.length) :
    exec (.encode payload opcode fin mask) s = .refused .payloadAboveLmax :=
  if_neg fun hadmits => absurd (admitsLength_iff.1 hadmits) (Nat.not_le.2 h)

/-- Settles O27: `LMAX` decides between the answer and the refusal. -/
theorem encodeAdmission : Obligations.EncodeAdmission :=
  fun _ opcode fin mask _ =>
    ⟨fun hfit => ⟨_, exec_encode_of_fits opcode fin mask hfit⟩, exec_encode_of_above opcode fin mask⟩

theorem exec_encode_unmasked {payload : List Byte} {s : State} (opcode : Nat) (fin : Bool)
    (h : Spec.FitsLength s payload.length) :
    exec (.encode payload opcode fin false) s =
      .next { s with
        fencPhase := .idle
        fencOut := s.fencOut ++ [.ok (Spec.header fin opcode false payload.length ++ payload)] } :=
  exec_encode_of_fits opcode fin false h

theorem exec_encode_of_key {payload : List Byte} {s : State} {k : Key} (opcode : Nat) (fin : Bool)
    (h : Spec.FitsLength s payload.length) (hkey : nextAnswer s = .ok k) :
    exec (.encode payload opcode fin true) s =
      .next { s with
        fencPhase := .idle
        fencOut := s.fencOut ++ [.ok (Spec.header fin opcode true payload.length ++
          keyBytes k ++ Spec.masked (keyBytes k) payload)]
        rngAnswers := s.rngAnswers.tail
        rngRequests := s.rngRequests + 1
        rngBytes := s.rngBytes + 4 } := by
  rw [exec_encode_of_fits opcode fin true h, encodeAnswer_masked_eq_ok_iff.2 ⟨k, hkey, rfl⟩, if_pos rfl,
    afterRequest_of_key hkey, finish_encode]

theorem exec_encode_of_no_key {payload : List Byte} {s : State} (opcode : Nat) (fin : Bool)
    (h : Spec.FitsLength s payload.length) (hkey : ∀ k, nextAnswer s ≠ .ok k) :
    exec (.encode payload opcode fin true) s =
      .next { s with
        fencPhase := .idle
        fencOut := s.fencOut ++ [.randomnessUnavailable]
        rngAnswers := s.rngAnswers.tail
        rngRequests := s.rngRequests + 1 } := by
  rw [exec_encode_of_fits opcode fin true h, encodeAnswer_eq_unavailable_iff.2 ⟨rfl, hkey⟩, if_pos rfl,
    afterRequest_of_no_key hkey, finish_encode]

/-- Settles O25: the equation of each way `ENCODE` ends. -/
theorem encodeResult : Obligations.EncodeResult :=
  fun _ opcode fin _ hfit => ⟨exec_encode_unmasked opcode fin hfit,
    fun _ _ _ _ hkey => exec_encode_of_key opcode fin hfit hkey, exec_encode_of_no_key opcode fin hfit⟩

/-- Settles O26: the response is the answer, which is the error exactly without a key, and a request is made
when `mask` says so. -/
theorem randomnessUnavailableExactlyWithoutAKey : Obligations.RandomnessUnavailableExactlyWithoutAKey := by
  intro payload opcode fin mask s hfit
  refine ⟨_, Spec.encodeAnswer (nextAnswer s) payload opcode fin mask,
    exec_encode_of_fits opcode fin mask hfit, ?response, encodeAnswer_eq_unavailable_iff, ?requests⟩
  case response => cases mask <;> rfl
  case requests => cases mask <;> rfl

/-- Settles O31: the first `ENCODE` leaves the second's answer at the head of the source, and `LMAX` as it
was. -/
theorem eachMaskedEncodeUsesItsOwnAnswer : Obligations.EachMaskedEncodeUsesItsOwnAnswer := by
  intro p p' o o' f f' s k k' later hfit hfit' hanswers
  refine ⟨_, _, exec_encode_of_key o f hfit (nextAnswer_of_rngAnswers hanswers),
    exec_encode_of_key (k := k') o' f' hfit' (nextAnswer_of_rngAnswers (later := later) ?head), ?out, ?rest⟩
  case head => simp [hanswers]
  case out => simp
  case rest => simp [hanswers]

/-! ## The response -/

/-- An `ENCODE` that goes on was admitted, and its answer is FENC's newest response. -/
theorem encode_next {payload : List Byte} {opcode : Nat} {fin mask : Bool} {s t : State}
    (h : exec (.encode payload opcode fin mask) s = .next t) :
    Spec.FitsLength s payload.length ∧
      t.fencOut = s.fencOut ++ [Spec.encodeAnswer (nextAnswer s) payload opcode fin mask] := by
  obtain ⟨hfit, rfl⟩ := exec_next h
  exact ⟨hfit, by cases mask <;> rfl⟩

/-- Settles O29: the two answers are one, and without `mask` no key is taken. -/
theorem encodeDependsOnRequestAndAnswer : Obligations.EncodeDependsOnRequestAndAnswer := by
  intro payload opcode fin mask s s' t t' h h' hanswer
  constructor
  · refine ⟨_, (encode_next h).2, ?_⟩
    rw [encodeAnswer_congr hanswer]
    exact (encode_next h').2
  · rintro rfl
    rw [exec_next_eq h]
    exact ⟨rfl, rfl, rfl⟩

/-! ## The shape of a frame -/

/-- A byte after the first part of a buffer is a byte of the second part. -/
theorem getD_append_add (h body : List Byte) (i : Nat) :
    (h ++ body).getD (h.length + i) 0 = body.getD i 0 := by
  rw [List.getD_append_right _ _ _ _ (Nat.le_add_right ..), Nat.add_sub_cancel_left]

/-- The payload offset parsed from a frame is where its header, and its key if it has one, end
(42_frame_encoder.md R91). -/
theorem payloadOffset_header_append (fin : Bool) (opcode : Nat) (mask : Bool) {n : Nat} (h : n < 2 ^ 64)
    (body : List Byte) :
    ∃ m, parseHeader (Spec.header fin opcode mask n ++ body) = some m ∧
      m.payloadOffset = (Spec.header fin opcode mask n).length + (if mask then 4 else 0) := by
  have hparse := parseHeader_hdrEnc_append fin opcode mask n body
  rw [hdrEnc_eq_header fin opcode mask h] at hparse
  refine ⟨_, hparse, ?_⟩
  rw [header_length fin opcode mask h]
  rfl

/-- The key stands after the header, and the masked payload after the key (42_frame_encoder.md R91). -/
theorem maskedFrame_positions (h payload : List Byte) (k : Key) :
    ((h ++ keyBytes k ++ Spec.masked (keyBytes k) payload).drop h.length).take 4 = keyBytes k ∧
    ∀ i, i < payload.length →
      (h ++ keyBytes k ++ Spec.masked (keyBytes k) payload).getD (h.length + 4 + i) 0 =
        payload.getD i 0 ^^^ (keyBytes k).getD (i % 4) 0 := by
  constructor
  · rw [List.append_assoc, List.drop_left, List.take_left' (keyBytes_length k)]
  · intro i hi
    have hoffset : h.length + 4 = (h ++ keyBytes k).length := by simp
    rw [hoffset, getD_append_add, masked_getD _ hi]

/-- Settles O28: the length, the header and the offset are the same argument for both kinds of frame; the
answer with a key and the one without `mask` say what stands after the header. -/
theorem encodedFrameShape : Obligations.EncodedFrameShape := by
  intro payload opcode fin mask s t f h hf
  obtain ⟨hfit, hout⟩ := encode_next h
  have hanswer : Spec.encodeAnswer (nextAnswer s) payload opcode fin mask = .ok f := by
    simpa using hout.symm.trans hf
  obtain ⟨body, hbody, hlength⟩ := encodeAnswer_eq_ok hanswer
  refine ⟨_, exec_hdrenc_of_fits fin opcode mask hfit, ?length, ?header, ?masked, ?unmasked, ?offset⟩
  case length => rw [hbody, List.length_append, hlength, Nat.add_assoc]
  case header => rw [hbody, List.take_left]
  case masked =>
    rintro rfl
    obtain ⟨k, hkey, rfl⟩ := encodeAnswer_masked_eq_ok_iff.1 hanswer
    exact ⟨k.k0, k.k1, k.k2, k.k3, hkey, maskedFrame_positions _ payload k⟩
  case unmasked =>
    rintro rfl i -
    rw [encodeAnswer_unmasked_eq_ok_iff.1 hanswer, getD_append_add]
  case offset => exact hbody ▸ payloadOffset_header_append fin opcode mask (lmax_lt hfit) body

end Sys2Proof.Machine
end

section
/-! SUPPORT. The answer of `DECODE` as a function of the buffer: on each frame form, on any whole header in the
terms of its record (43_frame_decoder.md R105), on what `ENCODE` puts out, and with more bytes after it. -/

namespace Sys2Proof.Machine

/-! ## On each frame form -/

theorem decodeAnswer_frameBytesS (policy : TruncPolicy) (t : FrameTag) (m : Bool) (l : Fin 126)
    (r : List Byte) :
    Spec.decodeAnswer policy (frameBytesS t m l r) = Spec.decoded policy t m 2 l.val r := by
  rw [Spec.decodeAnswer, decodeWire_frameBytesS]
  cases m <;> rfl

theorem decodeAnswer_frameBytesM (policy : TruncPolicy) (t : FrameTag) (m : Bool) (l : BitVec 16)
    (r : List Byte) :
    Spec.decodeAnswer policy (frameBytesM t m l r) = Spec.decoded policy t m 4 l.toNat r := by
  rw [Spec.decodeAnswer, decodeWire_frameBytesM]
  cases m <;> rfl

theorem decodeAnswer_frameBytesL (policy : TruncPolicy) (t : FrameTag) (m : Bool) (l : BitVec 64)
    (r : List Byte) :
    Spec.decodeAnswer policy (frameBytesL t m l r) = Spec.decoded policy t m 10 l.toNat r := by
  rw [Spec.decodeAnswer, decodeWire_frameBytesL]
  cases m <;> rfl

/-- A header that is not whole is the error under both policies (43_frame_decoder.md R103). -/
theorem decodeAnswer_of_no_header {frame : List Byte} (h : parseHeader frame = none) (policy : TruncPolicy) :
    Spec.decodeAnswer policy frame = .truncatedFrame := by
  rcases frame_cases frame with ⟨t, m, l, r, rfl⟩ | ⟨t, m, l, r, rfl⟩ | ⟨t, m, l, r, rfl⟩ | ⟨-, hw⟩
  · simp [parseHeader_frameBytesS] at h
  · simp [parseHeader_frameBytesM] at h
  · simp [parseHeader_frameBytesL] at h
  · rw [Spec.decodeAnswer, hw]

/-! ## On a whole header -/

/-- A buffer with a whole header is that header and the bytes after it; the header alone fixes the record,
and the answer on the buffer is that of the record's fields and the bytes after it. -/
theorem exists_split_of_parseHeader {frame : List Byte} {m : Meta} (h : parseHeader frame = some m) :
    ∃ (t : FrameTag) (hasMask : Bool) (len : BitVec 64) (hdr rest : List Byte),
      frame = hdr ++ rest ∧ m = metaOf t hasMask hdr.length len ∧
      (∀ rest', parseHeader (hdr ++ rest') = some m) ∧
      ∀ policy, Spec.decodeAnswer policy frame =
        Spec.decoded policy t hasMask hdr.length len.toNat rest := by
  rcases frame_cases frame with ⟨t, k, l, r, rfl⟩ | ⟨t, k, l, r, rfl⟩ | ⟨t, k, l, r, rfl⟩ | ⟨hp, -⟩
  · obtain rfl := Option.some.inj ((parseHeader_frameBytesS t k l r).symm.trans h)
    refine ⟨t, k, _, [byte0 t, byte1 k (len7Field l)], r, rfl, rfl, parseHeader_frameBytesS t k l, ?_⟩
    have hlen : (BitVec.ofNat 64 l.val).toNat = l.val := Nat.mod_eq_of_lt (by omega)
    rw [hlen]
    exact fun policy => decodeAnswer_frameBytesS policy t k l r
  · obtain rfl := Option.some.inj ((parseHeader_frameBytesM t k l r).symm.trans h)
    refine ⟨t, k, _, [byte0 t, byte1 k 126] ++ be16 l, r, rfl, rfl, parseHeader_frameBytesM t k l, ?_⟩
    rw [BitVec.toNat_setWidth_of_le (by omega)]
    exact fun policy => decodeAnswer_frameBytesM policy t k l r
  · obtain rfl := Option.some.inj ((parseHeader_frameBytesL t k l r).symm.trans h)
    exact ⟨t, k, l, [byte0 t, byte1 k 127] ++ be64 l, r, rfl, rfl, parseHeader_frameBytesL t k l,
      fun policy => decodeAnswer_frameBytesL policy t k l r⟩
  · rw [hp] at h
    cases h

/-- The parsed header stands in the buffer, and the payload offset is where it, and the key if there is one,
end (43_frame_decoder.md R102). -/
theorem parseHeader_offsets {frame : List Byte} {m : Meta} (h : parseHeader frame = some m) :
    m.headerLength ≤ frame.length ∧ m.payloadOffset = m.headerLength + (if m.hasMask then 4 else 0) := by
  obtain ⟨t, k, len, hdr, rest, rfl, rfl, -, -⟩ := exists_split_of_parseHeader h
  exact ⟨by simp [metaOf], rfl⟩

theorem parseHeader_append {frame : List Byte} {m : Meta} (h : parseHeader frame = some m)
    (extra : List Byte) : parseHeader (frame ++ extra) = some m := by
  obtain ⟨t, k, len, hdr, rest, rfl, -, hparse, -⟩ := exists_split_of_parseHeader h
  rw [List.append_assoc]
  exact hparse _

/-- The bytes of the buffer that the record calls payload, as many as are there
(`n = min(length, avail)` of 43_frame_decoder.md R105), still masked. -/
def rawPayload (m : Meta) (frame : List Byte) : List Byte :=
  (frame.drop m.payloadOffset).take (min m.length.toNat (frame.length - m.payloadOffset))

/-- What `DECODE` returns of the payload: the bytes that are there, unmasked with the key in the frame. -/
def presentPayload (m : Meta) (frame : List Byte) : List Byte :=
  if m.hasMask then Spec.masked ((frame.drop m.headerLength).take 4) (rawPayload m frame)
  else rawPayload m frame

/-- The record declares more bytes than the buffer holds (43_frame_decoder.md R109). -/
abbrev CutShort (m : Meta) (frame : List Byte) : Prop :=
  frame.length < m.payloadOffset + m.length.toNat

/-- What `DECODE` answers on a buffer with the parsed header `m` (43_frame_decoder.md R105, R108). -/
def parsedAnswer (policy : TruncPolicy) (m : Meta) (frame : List Byte) : DecodeResponse :=
  if CutShort m frame ∧ policy = .fail then .truncatedFrame
  else .ok (decide (CutShort m frame)) (presentPayload m frame) m

@[simp] theorem rawPayload_length (m : Meta) (frame : List Byte) :
    (rawPayload m frame).length = min m.length.toNat (frame.length - m.payloadOffset) := by
  simp [rawPayload]

@[simp] theorem presentPayload_length (m : Meta) (frame : List Byte) :
    (presentPayload m frame).length = min m.length.toNat (frame.length - m.payloadOffset) := by
  unfold presentPayload
  split <;> simp

theorem presentPayload_metaOf (t : FrameTag) (hasMask : Bool) (len : BitVec 64) (hdr rest : List Byte) :
    presentPayload (metaOf t hasMask hdr.length len) (hdr ++ rest) =
      if hasMask then Spec.masked (rest.take 4) ((rest.drop 4).take len.toNat)
      else rest.take len.toNat := by
  cases hasMask with
  | false => simp [presentPayload, rawPayload, metaOf, payloadOffsetOf, ← List.take_eq_take_min]
  | true =>
    have hraw : rawPayload (metaOf t true hdr.length len) (hdr ++ rest) = (rest.drop 4).take len.toNat := by
      rw [List.take_eq_take_min, List.length_drop]
      simp [rawPayload, metaOf, payloadOffsetOf, Nat.add_sub_add_left]
    rw [presentPayload, hraw]
    simp [metaOf]

/-- The two ways to write the answer on a whole header: by the bytes after the header, and by offsets of the
buffer. -/
theorem decoded_eq_parsedAnswer (policy : TruncPolicy) (t : FrameTag) (hasMask : Bool) (len : BitVec 64)
    (hdr rest : List Byte) :
    Spec.decoded policy t hasMask hdr.length len.toNat rest =
      parsedAnswer policy (metaOf t hasMask hdr.length len) (hdr ++ rest) := by
  have hrecord : Spec.record t hasMask hdr.length len.toNat = metaOf t hasMask hdr.length len := by
    cases hasMask <;> simp [Spec.record, metaOf, payloadOffsetOf]
  have hcut : CutShort (metaOf t hasMask hdr.length len) (hdr ++ rest) ↔
      rest.length < (if hasMask then 4 + len.toNat else len.toNat) := by
    cases hasMask <;> simp [CutShort, metaOf, payloadOffsetOf, Nat.add_assoc]
  simp only [Spec.decoded, parsedAnswer, hrecord, hcut, presentPayload_metaOf]
  simp

theorem decodeAnswer_of_parseHeader {frame : List Byte} {m : Meta} (h : parseHeader frame = some m)
    (policy : TruncPolicy) : Spec.decodeAnswer policy frame = parsedAnswer policy m frame := by
  obtain ⟨t, k, len, hdr, rest, rfl, rfl, -, hanswer⟩ := exists_split_of_parseHeader h
  rw [hanswer, decoded_eq_parsedAnswer]

/-- What an `OK` answer on a parsed header says. -/
theorem parsedAnswer_eq_ok_iff {policy : TruncPolicy} {m m' : Meta} {frame payload : List Byte}
    {truncated : Bool} :
    parsedAnswer policy m frame = .ok truncated payload m' ↔
      (CutShort m frame → policy = .clip) ∧ truncated = decide (CutShort m frame) ∧
        payload = presentPayload m frame ∧ m' = m := by
  unfold parsedAnswer
  by_cases hcut : CutShort m frame
  · cases policy <;> simp [hcut, eq_comm]
  · simp [hcut, eq_comm]

theorem parsedAnswer_of_whole {m : Meta} {frame : List Byte} (h : ¬ CutShort m frame) (policy : TruncPolicy) :
    parsedAnswer policy m frame = .ok false (presentPayload m frame) m :=
  parsedAnswer_eq_ok_iff.2 ⟨fun hcut => absurd hcut h, (decide_eq_false h).symm, rfl, rfl⟩

/-! ## On a frame of `ENCODE` -/

/-- A payload as long as declared is returned under both policies (43_frame_decoder.md R105). -/
theorem decoded_unmasked_of_whole (policy : TruncPolicy) (t : FrameTag) (headerLength : Nat)
    (payload : List Byte) :
    Spec.decoded policy t false headerLength payload.length payload =
      .ok false payload (Spec.record t false headerLength payload.length) := by
  simp [Spec.decoded]

/-- A masked payload as long as declared is unmasked with the key before it (43_frame_decoder.md R105). -/
theorem decoded_masked_of_whole (policy : TruncPolicy) (t : FrameTag) (headerLength : Nat)
    {key : List Byte} (hkey : key.length = 4) (payload : List Byte) :
    Spec.decoded policy t true headerLength payload.length (key ++ Spec.masked key payload) =
      .ok false payload (Spec.record t true headerLength payload.length) := by
  have htake : (Spec.masked key payload).take payload.length = Spec.masked key payload :=
    List.take_of_length_le (masked_length key payload).le
  simp [Spec.decoded, hkey, List.take_left' hkey, List.drop_left' hkey, htake, masked_masked hkey]

/-- The bytes after an encoded header are read with the fields that were encoded (43_frame_decoder.md R113). -/
theorem decodeAnswer_header_append (policy : TruncPolicy) (fin : Bool) (opcode : Nat) (mask : Bool) {n : Nat}
    (h : n < 2 ^ 64) (body : List Byte) :
    Spec.decodeAnswer policy (Spec.header fin opcode mask n ++ body) =
      Spec.decoded policy (Spec.encodedTag fin opcode) mask (Spec.header fin opcode mask n).length n body := by
  have hparse := parseHeader_hdrEnc_append fin opcode mask n body
  rw [hdrEnc_eq_header fin opcode mask h, ← header_length fin opcode mask h] at hparse
  rw [decodeAnswer_of_parseHeader hparse, ← decoded_eq_parsedAnswer, BitVec.toNat_ofNat, Nat.mod_eq_of_lt h]

/-- Encoding and decoding are inverse: a frame that `ENCODE` answers with is answered with its payload, whole,
and its options (43_frame_decoder.md R113). -/
theorem decodeAnswer_of_encodeAnswer {a : RngAnswer} {payload f : List Byte} {opcode : Nat} {fin mask : Bool}
    (hlt : payload.length < 2 ^ 64) (hf : Spec.encodeAnswer a payload opcode fin mask = .ok f)
    (policy : TruncPolicy) :
    Spec.decodeAnswer policy f = .ok false payload (Spec.record (Spec.encodedTag fin opcode) mask
      (Spec.header fin opcode mask payload.length).length payload.length) := by
  cases mask with
  | false =>
    rw [encodeAnswer_unmasked_eq_ok_iff.1 hf, decodeAnswer_header_append policy fin opcode false hlt,
      decoded_unmasked_of_whole]
  | true =>
    obtain ⟨k, -, rfl⟩ := encodeAnswer_masked_eq_ok_iff.1 hf
    rw [List.append_assoc, decodeAnswer_header_append policy fin opcode true hlt,
      decoded_masked_of_whole _ _ _ (keyBytes_length k)]

/-! ## With more bytes after it -/

/-- Where the declared payload is all there, neither the key nor the payload reaches into what follows
(43_frame_decoder.md R112). -/
theorem presentPayload_append {frame : List Byte} {m : Meta} (h : parseHeader frame = some m)
    (hwhole : ¬ CutShort m frame) (extra : List Byte) :
    presentPayload m (frame ++ extra) = presentPayload m frame := by
  obtain ⟨t, k, len, hdr, rest, rfl, rfl, -, -⟩ := exists_split_of_parseHeader h
  rw [List.append_assoc, presentPayload_metaOf, presentPayload_metaOf]
  cases k with
  | false =>
    have hfit : len.toNat ≤ rest.length := by
      simpa [metaOf, payloadOffsetOf] using hwhole
    simp [List.take_append_of_le_length hfit]
  | true =>
    have hfit : 4 + len.toNat ≤ rest.length := by
      simpa [metaOf, payloadOffsetOf, Nat.add_assoc] using hwhole
    have hdrop : len.toNat ≤ (rest.drop 4).length := by
      rw [List.length_drop]
      omega
    rw [if_pos rfl, if_pos rfl, List.take_append_of_le_length (by omega),
      List.drop_append_of_le_length (by omega), List.take_append_of_le_length hdrop]

theorem parsedAnswer_append {frame : List Byte} {m : Meta} (h : parseHeader frame = some m)
    (hwhole : ¬ CutShort m frame) (policy : TruncPolicy) (extra : List Byte) :
    parsedAnswer policy m (frame ++ extra) = .ok false (presentPayload m frame) m := by
  have hmore : ¬ CutShort m (frame ++ extra) := by
    rw [CutShort, List.length_append]
    omega
  rw [parsedAnswer_of_whole hmore, presentPayload_append h hwhole]

end Sys2Proof.Machine
end

section
/-! SUPPORT. DECODE and the frame forms: their one response, their refusal, what an `OK` response says of the
buffer, the record's fields by arithmetic, and no fault. Settles O35 to O37 and O39 to O49. -/

namespace Sys2Proof.Machine

/-! ## The operation -/

/-- An admitted `DECODE` ends with its answer and changes nothing else but FDEC's phase. -/
theorem exec_decode_of_fits {frame : List Byte} {s : State} (h : Spec.FitsFrame s frame.length) :
    exec (.decode frame) s = .next { s with
      fdecPhase := .idle
      fdecOut := s.fdecOut ++ [Spec.decodeAnswer s.cfg.truncPolicy frame] } :=
  exec_admitted (i := .decode frame) h

/-- The same, the answer given in the terms of the parsed record. -/
theorem exec_decode_of_parseHeader {frame : List Byte} {s : State} {m : Meta}
    (h : Spec.FitsFrame s frame.length) (hm : parseHeader frame = some m) :
    exec (.decode frame) s = .next { s with
      fdecPhase := .idle
      fdecOut := s.fdecOut ++ [parsedAnswer s.cfg.truncPolicy m frame] } := by
  rw [exec_decode_of_fits h, decodeAnswer_of_parseHeader hm]

/-- The refusal by name of a buffer above `FMAX` (43_frame_decoder.md R100). -/
theorem exec_decode_of_above {frame : List Byte} {s : State} (h : ¬ Spec.FitsFrame s frame.length) :
    exec (.decode frame) s = .refused .frameAboveFmax :=
  if_neg fun hadmits => h (admitsFrame_iff.1 hadmits)

/-- A `DECODE` that goes on was admitted, and its answer is FDEC's newest response. -/
theorem decode_next {frame : List Byte} {s t : State} (h : exec (.decode frame) s = .next t) :
    Spec.FitsFrame s frame.length ∧
      t.fdecOut = s.fdecOut ++ [Spec.decodeAnswer s.cfg.truncPolicy frame] := by
  obtain ⟨hfit, rfl⟩ := exec_next h
  exact ⟨hfit, rfl⟩

/-- What an `OK` response says: the header is whole and the record its own, the flag and the payload are
those of the rule, and a truncated buffer was clipped (43_frame_decoder.md R105 to R109). -/
theorem decode_ok {frame payload : List Byte} {truncated : Bool} {m : Meta} {s t : State}
    (h : exec (.decode frame) s = .next t) (hout : t.fdecOut = s.fdecOut ++ [.ok truncated payload m]) :
    parseHeader frame = some m ∧ (CutShort m frame → s.cfg.truncPolicy = .clip) ∧
      truncated = decide (CutShort m frame) ∧ payload = presentPayload m frame := by
  have hanswer : Spec.decodeAnswer s.cfg.truncPolicy frame = .ok truncated payload m := by
    simpa using (decode_next h).2.symm.trans hout
  cases hparse : parseHeader frame with
  | none =>
    rw [decodeAnswer_of_no_header hparse] at hanswer
    cases hanswer
  | some m' =>
    rw [decodeAnswer_of_parseHeader hparse] at hanswer
    obtain ⟨hclip, htrunc, hpayload, rfl⟩ := parsedAnswer_eq_ok_iff.1 hanswer
    exact ⟨rfl, hclip, htrunc, hpayload⟩

/-- Settles O49: the encoder's answer decodes to the payload, in any state that admits the frame. -/
theorem decodeInvertsEncode : Obligations.DecodeInvertsEncode := by
  intro payload opcode fin mask s t f h hf hfit
  obtain ⟨hpayload, hout⟩ := encode_next h
  have hanswer : Spec.encodeAnswer (nextAnswer s) payload opcode fin mask = .ok f := by
    simpa using hout.symm.trans hf
  refine ⟨_, exec_hdrenc_of_fits fin opcode mask hpayload, ?_⟩
  rw [exec_decode_of_fits hfit, decodeAnswer_of_encodeAnswer (lmax_lt hpayload) hanswer]
  cases mask <;> rfl

/-! ## Results and refusals -/

/-- Settles O35: the response of an admitted instruction, for each form. -/
theorem unmaskedFrameResults : Obligations.UnmaskedFrameResults :=
  fun tag rest _ =>
    ⟨fun len7 hfit => exec_admitted (i := .frameSU tag len7 rest) hfit,
      fun len16 hfit => exec_admitted (i := .frameMU tag len16 rest) hfit,
      fun len64 hfit => exec_admitted (i := .frameLU tag len64 rest) hfit⟩

/-- Settles O36: the response of an admitted instruction, for each form. -/
theorem maskedFrameResults : Obligations.MaskedFrameResults :=
  fun tag rest _ =>
    ⟨fun len7 hfit => exec_admitted (i := .frameSK tag len7 rest) hfit,
      fun len16 hfit => exec_admitted (i := .frameMK tag len16 rest) hfit,
      fun len64 hfit => exec_admitted (i := .frameLK tag len64 rest) hfit⟩

theorem decodeForm_of_above {frame : List Byte} {s : State} (m : Meta)
    (h : ¬ Spec.FitsFrame s frame.length) : decodeForm m frame s = .refused .frameAboveFmax :=
  if_neg fun hadmits => h (admitsFrame_iff.1 hadmits)

/-- Settles O37: each form is `decodeForm` of its header and `rest`, refused on their length. -/
theorem frameFormsAboveFmaxAreRefused : Obligations.FrameFormsAboveFmaxAreRefused := by
  intro tag rest s len7 len16 len64
  refine ⟨fun h => ?S, fun h => ?M, fun h => ?L⟩
  case S => constructor <;> exact decodeForm_of_above _ (by rwa [frameBytesS_length])
  case M => constructor <;> exact decodeForm_of_above _ (by rwa [frameBytesM_length])
  case L => constructor <;> exact decodeForm_of_above _ (by rwa [frameBytesL_length])

/-- Settles O46: `FMAX` decides between the answer and the refusal. -/
theorem decodeAdmission : Obligations.DecodeAdmission := by
  intro frame s
  refine ⟨fun hnone => ⟨_, exec_decode_of_fits (by simp [Spec.FitsFrame, hnone])⟩, fun fmax hfmax => ?_⟩
  have hiff : Spec.FitsFrame s frame.length ↔ frame.length ≤ fmax := by simp [Spec.FitsFrame, hfmax]
  exact ⟨fun hle => ⟨_, exec_decode_of_fits (hiff.2 hle)⟩,
    fun hlt => exec_decode_of_above fun hfit => Nat.not_le.2 hlt (hiff.1 hfit)⟩

/-- Settles O39: `parsedAnswer` is the rule's pseudocode. -/
theorem decodeResult : Obligations.DecodeResult :=
  fun _ _ hfit => ⟨_, exec_decode_of_fits hfit, fun hnone => decodeAnswer_of_no_header hnone _,
    fun _ hm => decodeAnswer_of_parseHeader hm _⟩

/-- Settles O47: all of an unmasked payload is there when as many bytes as the field says follow the header,
whatever form the field has. -/
theorem nonMinimalLengthIsDecodedAsWritten : Obligations.NonMinimalLengthIsDecodedAsWritten := by
  intro tag payload s
  refine ⟨fun len16 hlen hfit => ?M, fun len64 hlen hfit => ?L⟩
  case M =>
    rw [exec_decode_of_fits (by rwa [frameBytesM_length]), decodeAnswer_frameBytesM, hlen,
      decoded_unmasked_of_whole]
    rfl
  case L =>
    have hfield : len64 = BitVec.ofNat 64 payload.length := by
      rw [← hlen, BitVec.ofNat_toNat, BitVec.setWidth_eq]
    rw [exec_decode_of_fits (by rwa [frameBytesL_length]), decodeAnswer_frameBytesL, hlen,
      decoded_unmasked_of_whole, hfield]
    rfl

/-! ## What an `OK` response says -/

/-- Settles O44: the record is the parsed one and the payload is `presentPayload`. -/
theorem metadataIsAsDeclared : Obligations.MetadataIsAsDeclared := by
  intro frame payload truncated m s t h hout
  obtain ⟨hparse, -, rfl, rfl⟩ := decode_ok h hout
  refine ⟨hparse, presentPayload_length m frame, ?_⟩
  rw [presentPayload_length, decide_eq_true_iff]
  omega

/-- Settles O43: the flag is `CutShort`, and the rest is arithmetic on the offsets of a whole header. -/
theorem truncatedFlagCases : Obligations.TruncatedFlagCases := by
  intro frame payload truncated m s t h hout
  obtain ⟨hparse, hclip, rfl, rfl⟩ := decode_ok h hout
  obtain ⟨hheader, hoffset⟩ := parseHeader_offsets hparse
  rw [decide_eq_true_iff, presentPayload_length]
  refine ⟨Iff.rfl, ?cases, by omega, hclip⟩
  case cases => cases hmask : m.hasMask <;> simp [hmask] at hoffset ⊢ <;> omega

/-- Settles O45: the header parses as before, and the whole payload is where it was. -/
theorem bytesAfterTheFrameAreIgnored : Obligations.BytesAfterTheFrameAreIgnored := by
  intro frame extra payload m s h hfit
  obtain ⟨hparse, -, hwhole, rfl⟩ := decode_ok h rfl
  rw [exec_decode_of_parseHeader hfit (parseHeader_append hparse extra),
    parsedAnswer_append hparse (of_decide_eq_false hwhole.symm)]

/-- Byte `i` of the payload is the buffer's at `payloadOffset + i`, XOR key byte `i mod 4` of the frame. -/
theorem presentPayload_getD {m : Meta} {frame : List Byte} {i : Nat}
    (h : i < (presentPayload m frame).length) :
    (presentPayload m frame).getD i 0 = frame.getD (m.payloadOffset + i) 0 ^^^
      (if m.hasMask then frame.getD (m.headerLength + i % 4) 0 else 0) := by
  rw [presentPayload_length] at h
  have hraw : (rawPayload m frame).getD i 0 = frame.getD (m.payloadOffset + i) 0 := by
    rw [List.getD_eq_getElem?_getD, List.getD_eq_getElem?_getD, rawPayload, List.getElem?_take_of_lt h,
      List.getElem?_drop]
  unfold presentPayload
  split
  · have hkey : ((frame.drop m.headerLength).take 4).getD (i % 4) 0 =
        frame.getD (m.headerLength + i % 4) 0 := by
      rw [List.getD_eq_getElem?_getD, List.getD_eq_getElem?_getD,
        List.getElem?_take_of_lt (Nat.mod_lt i (by omega)), List.getElem?_drop]
    rw [masked_getD _ (by rwa [rawPayload_length]), hraw, hkey]
  · exact hraw.trans BitVec.xor_zero.symm

/-- Settles O42: the two branches of `parsedAnswer` on a truncated buffer, and the one on any other, where
the answer is the same under both policies. -/
theorem truncationPolicies : Obligations.TruncationPolicies := by
  intro frame m s hfit hparse
  refine ⟨fun hcut hclip => ?clip, fun hcut hfail => ?fail, fun hwhole => ?whole⟩
  case clip =>
    refine ⟨presentPayload m frame, ?_, presentPayload_length m frame, fun i hi => presentPayload_getD hi⟩
    rw [exec_decode_of_parseHeader hfit hparse,
      parsedAnswer_eq_ok_iff.2 ⟨fun _ => hclip, (decide_eq_true hcut).symm, rfl, rfl⟩]
  case fail =>
    rw [exec_decode_of_parseHeader hfit hparse, parsedAnswer, if_pos ⟨hcut, hfail⟩]
  case whole =>
    refine ⟨presentPayload m frame, fun policy => ?_⟩
    have hfit' : Spec.FitsFrame { s with cfg := { s.cfg with truncPolicy := policy } } frame.length := hfit
    rw [exec_decode_of_parseHeader hfit' hparse, parsedAnswer_of_whole (Nat.not_lt.2 hwhole)]

/-! ## The header's fields by arithmetic -/

theorem len7Of_toNat (b1 : Byte) : (len7Of b1).toNat = b1.toNat % 128 := by
  simp [len7Of, BitVec.extractLsb'_toNat]

theorem maskOf_eq_decide (b1 : Byte) : maskOf b1 = decide (128 ≤ b1.toNat) := by
  revert b1
  decide

/-- The fields of byte 0 as numbers (43_frame_decoder.md R101). -/
theorem tagOf_eq (b0 : Byte) :
    tagOf b0 =
      { fin := decide (128 ≤ b0.toNat), rsv1 := decide (b0.toNat / 64 % 2 = 1),
        rsv2 := decide (b0.toNat / 32 % 2 = 1), rsv3 := decide (b0.toNat / 16 % 2 = 1),
        opcode := BitVec.ofNat 4 b0.toNat } := by
  revert b0
  decide

theorem fromBe_eq_foldl (s : List Byte) : fromBe s = s.foldl (fun acc b => acc * 256 + b.toNat) 0 := by
  suffices h : ∀ acc, fromBeOnto acc s = s.foldl (fun acc b => acc * 256 + b.toNat) acc from h 0
  induction s with
  | nil => exact fun _ => rfl
  | cons b s ih => exact fun acc => ih (acc * 256 + b.toNat)

/-- A buffer too short for the header that its second byte announces has no record (43_frame_decoder.md
R103). -/
theorem parseHeader_of_short {b0 b1 : Byte} {rest : List Byte}
    (h : 2 + rest.length < headerLengthOf (b1.toNat % 128)) : parseHeader (b0 :: b1 :: rest) = none := by
  have hshort : (b0 :: b1 :: rest).length < headerLengthOf (len7Of b1).toNat := by
    rw [len7Of_toNat, List.length_cons, List.length_cons]
    omega
  rw [parseHeader, if_pos hshort]

/-- Settles O40: none of the three buffers has a record, and without one the answer is the error. -/
theorem incompleteHeaderIsTruncatedFrame : Obligations.IncompleteHeaderIsTruncatedFrame := by
  intro frame s hfit hincomplete
  have hparse : parseHeader frame = none := by
    match frame with
    | [] | [_] => rfl
    | b0 :: b1 :: rest =>
      simp only [List.length_cons, List.getD_cons_succ, List.getD_cons_zero] at hincomplete
      apply parseHeader_of_short
      unfold headerLengthOf
      split <;> [omega; split <;> omega]
  rw [exec_decode_of_fits hfit, decodeAnswer_of_no_header hparse]

/-- The declared length as a number, where the bytes it stands in are there (43_frame_decoder.md R101). -/
def declaredNat (len7 : Nat) (rest : List Byte) : Nat :=
  if len7 ≤ 125 then len7 else fromBe (rest.take (if len7 = 126 then 2 else 8))

theorem declaredLength_of_whole (b0 b1 : Byte) {rest : List Byte} {len7 : Nat}
    (h : headerLengthOf len7 ≤ 2 + rest.length) :
    declaredLength (b0 :: b1 :: rest) len7 = some (BitVec.ofNat 64 (declaredNat len7 rest)) := by
  by_cases hshort : len7 ≤ 125
  · rw [declaredLength, declaredNat, if_pos hshort, if_pos hshort]
  · have hheader : headerLengthOf len7 = 2 + (if len7 = 126 then 2 else 8) := by
      rw [headerLengthOf, if_neg hshort]
      split <;> rfl
    have hread : memRead (b0 :: b1 :: rest) 2 (if len7 = 126 then 2 else 8) =
        some (rest.take (if len7 = 126 then 2 else 8)) := by
      refine memRead_eq_some_iff.2 ⟨?_, rfl⟩
      rw [List.length_cons, List.length_cons]
      omega
    rw [declaredLength, declaredNat, if_neg hshort, if_neg hshort, hread, Option.map_some]

/-- The record of a buffer that holds the header its second byte announces (43_frame_decoder.md R101). -/
theorem parseHeader_of_whole {b0 b1 : Byte} {rest : List Byte}
    (h : headerLengthOf (b1.toNat % 128) ≤ 2 + rest.length) :
    parseHeader (b0 :: b1 :: rest) = some (metaOf (tagOf b0) (maskOf b1)
      (headerLengthOf (b1.toNat % 128)) (BitVec.ofNat 64 (declaredNat (b1.toNat % 128) rest))) := by
  have hwhole : ¬ (b0 :: b1 :: rest).length < headerLengthOf (b1.toNat % 128) := by
    rw [List.length_cons, List.length_cons]
    omega
  rw [parseHeader, len7Of_toNat, if_neg hwhole, declaredLength_of_whole b0 b1 h, Option.map_some]

theorem declaredNat_lt {len7 : Nat} (rest : List Byte) : declaredNat len7 rest < 2 ^ 64 := by
  unfold declaredNat
  split
  · omega
  · have hfield : (rest.take (if len7 = 126 then 2 else 8)).length ≤ 8 := by
      rw [List.length_take]
      split <;> omega
    calc fromBe _ < 256 ^ _ := fromBe_lt _
      _ ≤ 256 ^ 8 := Nat.pow_le_pow_right (by omega) hfield

/-- Settles O41: the response under `CLIP` has the parsed record, whose fields are the bytes' arithmetic. -/
theorem decodedRecordFields : Obligations.DecodedRecordFields := by
  intro b0 b1 rest s hfit hclip hmedium hlong
  have hfit' : Spec.FitsFrame s (b0 :: b1 :: rest).length := by
    rwa [List.length_cons, List.length_cons, Nat.add_assoc, Nat.add_comm]
  have hheader : headerLengthOf (b1.toNat % 128) ≤ 2 + rest.length := by
    unfold headerLengthOf
    split <;> [omega; split <;> omega]
  have hexec := exec_decode_of_parseHeader hfit' (parseHeader_of_whole hheader)
  rw [parsedAnswer_eq_ok_iff.2 ⟨fun _ => hclip, rfl, rfl, rfl⟩, tagOf_eq, maskOf_eq_decide] at hexec
  have hlength := Nat.mod_eq_of_lt (declaredNat_lt (len7 := b1.toNat % 128) rest)
  refine ⟨_, _, _, hexec, rfl, rfl, rfl, rfl, rfl, rfl, rfl, rfl, ?short, ?medium, ?long⟩
  case short =>
    intro h
    rw [metaOf, BitVec.toNat_ofNat, hlength, declaredNat, if_pos h]
  case medium =>
    intro h
    obtain ⟨c0, c1, tail, rfl⟩ : ∃ c0 c1 tail, rest = c0 :: c1 :: tail := by
      match rest, hmedium h with
      | c0 :: c1 :: tail, _ => exact ⟨c0, c1, tail, rfl⟩
    rw [metaOf, BitVec.toNat_ofNat, hlength]
    simp [declaredNat, h, fromBe, fromBeOnto]
  case long =>
    intro h
    rw [metaOf, BitVec.toNat_ofNat, hlength, ← fromBe_eq_foldl]
    simp [declaredNat, h]

/-! ## No fault -/

/-- Settles O48: an instruction answers or refuses, and a step that runs none does one of these too. -/
theorem nothingFaults : Obligations.NothingFaults := by
  have hexec : ∀ (i : Instr) (s : State) (f : Fault), exec i s ≠ .fault f := by
    intro i s f h
    rcases exec_cases i s with ⟨-, hnext⟩ | ⟨-, r, hrefused⟩
    · rw [hnext] at h
      cases h
    · rw [hrefused] at h
      cases h
  refine ⟨hexec, fun s f h => ?_⟩
  rw [step] at h
  split at h
  · cases h
  · cases h
  · cases h
  · cases h
  · exact hexec _ _ _ h

end Sys2Proof.Machine
end

section
/-! SUPPORT. Exceptions: a `DECODE` issued again, and a record that is no request of its unit. Settles O11
and O50. -/

namespace Sys2Proof.Machine

/-- Settles O50: the answer is a function of the buffer and the truncation policy (60_exceptions.md R126),
and the first `DECODE` has kept the configuration and left FDEC `IDLE`. -/
theorem reissuedDecodeAnswersTheSame : Obligations.ReissuedDecodeAnswersTheSame := by
  intro frame s t r h hout
  obtain ⟨hfit, hnewest⟩ := decode_next h
  obtain rfl : r = Spec.decodeAnswer s.cfg.truncPolicy frame := by
    simpa using hout.symm.trans hnewest
  rw [exec_decode_of_fits hfit] at h
  cases h
  exact exec_decode_of_fits hfit

/-- Settles O11: `fetch` answers `illTyped` with the decoder's error, and `step` refuses with its name. -/
theorem illTypedRequestIsRefused : Obligations.IllTypedRequestIsRefused :=
  fun _ _ _ _ hreset hreq hdec => step_of_illTyped hreset hreq hdec

end Sys2Proof.Machine
end

section
/-! SUPPORT. Reset and hazards: a step with nothing to do, every request answered or refused, the first request
after a reset, and a frame in front of others. Settles O10, O51, O55 and O60. -/

namespace Sys2Proof.Machine

/-- Settles O10: `fetch` finds nothing, on which a step keeps the state. -/
theorem stepWithoutARequestChangesNothing : Obligations.StepWithoutARequestChangesNothing :=
  fun _ hreset hreq => step_of_no_request hreset hreq

/-! ## Every request ends -/

/-- An instruction that goes on leaves its own unit `IDLE` and the other units' phases as they were
(10_state.md R15). -/
theorem phaseOf_exec {i : Instr} {s t : State} (h : exec i s = .next t) (u : UnitId) :
    phaseOf t u = if u = i.unit then .idle else phaseOf s u := by
  rw [exec_next_eq h, phaseOf_finish, responder_response, phaseOf_keyTaken]

/-- Settles O55: admission decides between an answer, which ends the transaction, and a refusal. -/
theorem admittedRequestsAreAnsweredOthersRefused : Obligations.AdmittedRequestsAreAnsweredOthersRefused := by
  intro i s
  refine ⟨fun hadm => ?answered, exec_not_admitted⟩
  case answered =>
    obtain ⟨t, hexec⟩ := exec_goes_on_iff.2 hadm
    exact ⟨t, hexec, (phaseOf_exec hexec i.unit).trans (if_pos rfl)⟩

/-! ## After a reset -/

/-- Ending a transaction gives exactly one response, whichever unit it comes from. -/
theorem finish_response_count (r : Response) (s : State) :
    (finish r s).fencOut.length + (finish r s).fdecOut.length + (finish r s).vlheOut.length +
        (finish r s).xmeOut.length =
      s.fencOut.length + s.fdecOut.length + s.vlheOut.length + s.xmeOut.length + 1 := by
  cases r <;> simp <;> omega

/-- From a state with every unit `IDLE`, a transaction ends with every unit `IDLE` again. -/
theorem allIdle_exec_takeRequest {i : Instr} {s t : State} {rest : List Request}
    (hidle : ∀ u, phaseOf s u = .idle) (h : exec i (takeRequest s i.unit rest) = .next t) : AllIdle t := by
  refine allIdle_iff.2 fun u => ?_
  rw [phaseOf_exec h, phaseOf_takeRequest, hidle]
  split <;> rfl

/-- Settles O60: a reset keeps the requests and the configuration, so the next step runs the oldest request,
from a block in which every unit is `IDLE` and no response exists. -/
theorem firstRequestAfterResetIsServed : Obligations.FirstRequestAfterResetIsServed := by
  intro s r rest i hreset hreq hdec hadm
  have hadm' : Spec.Admitted (takeRequest (applyReset s) i.unit rest) i :=
    (admitted_congr (by simp) i).1 hadm
  obtain ⟨u, hexec⟩ := exec_goes_on_iff.2 hadm'
  have hstep := step_eq_exec_takeRequest (s := applyReset s) (applyReset_resetLine s) hreq hdec
    (applyReset_phaseOf s i.unit)
  refine ⟨applyReset s, u, step_of_resetLine hreset, hstep.trans hexec, ?requests, ?idle, ?responses⟩
  case requests => simp [exec_next_eq hexec]
  case idle => exact allIdle_exec_takeRequest (applyReset_phaseOf s) hexec
  case responses =>
    rw [exec_next_eq hexec, finish_response_count]
    simp

/-! ## A frame in front of others -/

/-- The frame an `ENCODE` puts out parses to a record that declares exactly the frame's bytes, and the payload
the record finds in it is the one that was encoded (42_frame_encoder.md R91, 43_frame_decoder.md R113). -/
theorem record_of_exec_encode {payload f : List Byte} {opcode : Nat} {fin mask : Bool} {s t : State}
    (h : exec (.encode payload opcode fin mask) s = .next t) (hf : t.fencOut = s.fencOut ++ [.ok f]) :
    ∃ m, parseHeader f = some m ∧ f.length = m.payloadOffset + m.length.toNat ∧
      presentPayload m f = payload := by
  obtain ⟨hfit, hout⟩ := encode_next h
  have hanswer : Spec.encodeAnswer (nextAnswer s) payload opcode fin mask = .ok f := by
    simpa using hout.symm.trans hf
  have hlegal := legal_encodeAnswer (nextAnswer s) payload opcode fin mask (lmax_lt hfit)
  rw [hanswer] at hlegal
  obtain ⟨m, hparse, -, -, -, -, -, hlength⟩ := hlegal
  have hdecoded := decodeAnswer_of_encodeAnswer (lmax_lt hfit) hanswer .clip
  rw [decodeAnswer_of_parseHeader hparse] at hdecoded
  obtain ⟨-, -, hpayload, -⟩ := parsedAnswer_eq_ok_iff.1 hdecoded
  exact ⟨m, hparse, hlength, hpayload.symm⟩

/-- Settles O51: the frame's record declares all of the frame and nothing of what follows, so the answer is
that of the frame alone and what follows begins where the record ends (70_reset_and_hazards.md R142). -/
theorem firstOfSeveralFrames : Obligations.FirstOfSeveralFrames := by
  intro payload opcode fin mask s t f more h hf hfit
  obtain ⟨m, hparse, hlength, hpayload⟩ := record_of_exec_encode h hf
  refine ⟨m, ?answer, ?following⟩
  case answer =>
    rw [exec_decode_of_parseHeader hfit (parseHeader_append hparse more),
      parsedAnswer_append hparse (Nat.not_lt.2 hlength.ge), hpayload]
  case following => rw [← hlength, List.drop_left]

end Sys2Proof.Machine
end
